-- ==== Sys2Proof/Word.lean ====
section
/-! DEFINITION. The word of the AL8 core: every register and memory value is one unsigned byte
(00_scope.md R6, R8). -/

namespace Sys2Proof

/-- A byte, bits 7..0, unsigned (R8). -/
abbrev Byte := BitVec 8

end Sys2Proof
end

