-- ==== Sys2Proof/Syntax.lean ====
section
/-! DEFINITION. The instructions of the AL8 core (30_encoding.md R60 to R65), and what reading bytes as an
instruction can give. -/

namespace Sys2Proof

/-- The six mnemonics, in the order of the decoder table (30_encoding.md R63). -/
inductive Mnemonic where
  | hlt | lda | sta | add | sub | jmp
deriving DecidableEq, Repr

/-- An instruction: one constructor per row of spec/opcode_table.json. `op` is the operand byte of format M,
used unchanged (30_encoding.md R61, R62). -/
inductive Instr where
  /-- Halt (43_control.md R141). -/
  | hlt
  /-- Load the accumulator from memory (41_data_transfer.md R100). -/
  | lda (op : Byte)
  /-- Store the accumulator to memory (41_data_transfer.md R101). -/
  | sta (op : Byte)
  /-- Add a memory byte to the accumulator (42_arithmetic.md R120). -/
  | add (op : Byte)
  /-- Subtract a memory byte from the accumulator (42_arithmetic.md R121). -/
  | sub (op : Byte)
  /-- Jump; the operand byte is fetched and discarded (43_control.md R140). -/
  | jmp (op : Byte)
deriving DecidableEq, Repr

/-- One row of the decoder look-up table: "the fixed mapping between mnemonic names, numeric opcodes, and operand
arity" (30_encoding.md R63). -/
structure LutRow where
  opcode   : Byte
  mnemonic : Mnemonic
  /-- How many operand bytes follow the opcode byte (R60). -/
  arity    : Nat
deriving DecidableEq, Repr

/-- What a list of bytes decodes to. -/
inductive Decoded where
  /-- An instruction, and the bytes after it. -/
  | instr (i : Instr) (rest : List Byte)
  /-- The first byte is no opcode: 0x06..0xFF (30_encoding.md R65). -/
  | illegal (v : Byte)
  /-- There is no byte to read an opcode from. No memory gives this: it has a byte at every address. -/
  | noBytes
  /-- A format M opcode with no operand byte after it. No memory gives this either. -/
  | missingOperand (opcode : Byte)
deriving DecidableEq, Repr

/-- The mnemonic an instruction is written with. -/
def Instr.mnemonic : Instr → Mnemonic
  | .hlt => .hlt
  | .lda _ => .lda
  | .sta _ => .sta
  | .add _ => .add
  | .sub _ => .sub
  | .jmp _ => .jmp

/-- The operand byte, where the format has one (30_encoding.md R61). -/
def Instr.operand : Instr → Option Byte
  | .hlt => none
  | .lda op => some op
  | .sta op => some op
  | .add op => some op
  | .sub op => some op
  | .jmp op => some op

/-- How many bytes an instruction takes: HLT one, every other two (30_encoding.md R60). -/
def Instr.length : Instr → Nat
  | .hlt => 1
  | .lda _ => 2
  | .sta _ => 2
  | .add _ => 2
  | .sub _ => 2
  | .jmp _ => 2

end Sys2Proof
end

