-- ==== Sys2Proof/Config.lean ====
section
/-! DEFINITION. What the AL8 core fixes (00_scope.md R6), and the values the spec leaves unspecified: the registers
at construction, before any reset (10_state.md R30). The core has no open parameter. -/

namespace Sys2Proof.Config

/-- The memory has 256 bytes, addresses 0..255 (00_scope.md R6, 10_state.md R29). -/
abbrev memorySize : Nat := 256

/-- Free value: `A` at the `n`-th construction (R30: unspecified; log entry 2). -/
opaque constructedA : Nat → Byte

/-- Free value: `PC` at the `n`-th construction (R30: unspecified; log entry 2). -/
opaque constructedPC : Nat → Byte

/-- Free value: `IR` at the `n`-th construction (R30: unspecified; log entry 2). -/
opaque constructedIR : Nat → Byte

/-- Free value: `RUN` at the `n`-th construction (R30: unspecified; log entry 2). -/
opaque constructedRUN : Nat → Bool

end Sys2Proof.Config
end

