-- ==== Sys2Proof/WellFormed.lean ====
section
/-! DEFINITION. Which instructions and programs are well formed. -/

namespace Sys2Proof

/-- Every instruction of the syntax is well formed: "the operand byte of a format-M instruction is never illegal: all
256 values are valid addresses" (30_encoding.md R65). So there is nothing for this check to refuse. -/
def Instr.wellFormed : Instr → Bool
  | .hlt => true
  | .lda _ => true
  | .sta _ => true
  | .add _ => true
  | .sub _ => true
  | .jmp _ => true

/-- How many bytes a program laid end to end takes (30_encoding.md R67, R68). -/
def programLength : List Instr → Nat
  | [] => 0
  | i :: is => i.length + programLength is

/-- A program that is loaded whole: at most 256 bytes, its instructions well formed (30_encoding.md R68: a longer
one is truncated on load). -/
def wellFormedProgram (p : List Instr) : Bool :=
  p.all Instr.wellFormed && decide (programLength p ≤ Config.memorySize)

end Sys2Proof
end

