-- ==== Sys2Proof/Decode.lean ====
section
/-! DEFINITION. The decoder look-up table, the decoder, the encoder and the flat binary format
(30_encoding.md R60 to R69). One table serves both (00_scope.md R13). -/

namespace Sys2Proof

/-- The look-up table of 30_encoding.md R63. A byte of no row is illegal (R65). -/
def lut : List LutRow :=
  [ { opcode := 0x00, mnemonic := .hlt, arity := 0 },
    { opcode := 0x01, mnemonic := .lda, arity := 1 },
    { opcode := 0x02, mnemonic := .sta, arity := 1 },
    { opcode := 0x03, mnemonic := .add, arity := 1 },
    { opcode := 0x04, mnemonic := .sub, arity := 1 },
    { opcode := 0x05, mnemonic := .jmp, arity := 1 } ]

/-- The mnemonic of an opcode byte, all eight bits compared; `none` is the "explicit default arm"
(30_encoding.md R64). -/
def mnemonicOf (v : Byte) : Option Mnemonic :=
  (lut.find? fun r => r.opcode == v).map LutRow.mnemonic

/-- The table's row of a mnemonic. -/
def rowOf (m : Mnemonic) : Option LutRow :=
  lut.find? fun r => r.mnemonic == m

/-- The opcode byte of a mnemonic (30_encoding.md R63; 44_assembler.md R165). Every mnemonic has a row, so the
default is never taken. -/
def opcodeOf (m : Mnemonic) : Byte :=
  ((rowOf m).map LutRow.opcode).getD 0

/-- How many operand bytes follow a mnemonic's opcode (30_encoding.md R60, R63). -/
def arityOf (m : Mnemonic) : Nat :=
  ((rowOf m).map LutRow.arity).getD 0

/-- `len(v)` of 30_encoding.md R64: an opcode byte alone fixes the length; an illegal byte takes only itself
(R60). -/
def opcodeLength (v : Byte) : Nat :=
  match mnemonicOf v with
  | none => 1
  | some m => 1 + arityOf m

/-- The instruction of a mnemonic with an operand byte; HLT takes none. -/
def Mnemonic.toInstr (m : Mnemonic) (op : Byte) : Instr :=
  match m with
  | .hlt => .hlt
  | .lda => .lda op
  | .sta => .sta op
  | .add => .add op
  | .sub => .sub op
  | .jmp => .jmp op

/-- Reads one instruction from the front of a list of bytes: the opcode byte (R64), then, for a format M opcode, the
operand byte after it (R61). Total: whatever is no instruction is rejected by name. -/
def decode : List Byte → Decoded
  | [] => .noBytes
  | v :: rest =>
    match mnemonicOf v with
    | none => .illegal v
    | some m =>
      if arityOf m = 0 then .instr (m.toInstr 0) rest
      else
        match rest with
        | [] => .missingOperand v
        | op :: rest' => .instr (m.toInstr op) rest'

/-- The bytes of an instruction: its opcode, then its operand where it has one (30_encoding.md R61, R67). -/
def encode (i : Instr) : List Byte :=
  match i.operand with
  | none => [opcodeOf i.mnemonic]
  | some op => [opcodeOf i.mnemonic, op]

/-- The flat binary of a program: its instructions laid end to end (30_encoding.md R67, R68). -/
def encodeProgram : List Instr → List Byte
  | [] => []
  | i :: is => encode i ++ encodeProgram is

/-- Reads a flat binary as instructions laid end to end (30_encoding.md R67, R68); `none` where it is no such
sequence. The processor does not follow this parse (R69). -/
def parseProgram : List Byte → Option (List Instr)
  | [] => some []
  | [v] =>
    match mnemonicOf v with
    | none => none
    | some m => if arityOf m = 0 then some [m.toInstr 0] else none
  | v :: op :: rest =>
    match mnemonicOf v with
    | none => none
    | some m =>
      if arityOf m = 0 then (parseProgram (op :: rest)).map (m.toInstr 0 :: ·)
      else (parseProgram rest).map (m.toInstr op :: ·)

/-- The two bytes a table word stands for: bits 7..0 first, then bits 15..8; the bits above `nbits` are 0. Two bytes
are the longest instruction (30_encoding.md R60). -/
def tableBytes (nbits w : Nat) : List Byte :=
  [BitVec.ofNat 8 (w % 2 ^ nbits), BitVec.ofNat 8 (w % 2 ^ nbits / 256)]

/-- The instruction the decoder reads from a word of spec/opcode_table.json. -/
def decodeTableWord (nbits w : Nat) : Option Instr :=
  match decode (tableBytes nbits w) with
  | .instr i _ => some i
  | .illegal _ => none
  | .noBytes => none
  | .missingOperand _ => none

end Sys2Proof
end

