-- ==== Sys2Proof/Machine/State.lean ====
section
/-! DEFINITION. The architectural state of one AL8 processor instance, "exactly the tuple" of 10_state.md R20, its
values at construction and after reset, and the reasons a step can stop. -/

namespace Sys2Proof.Machine

/-- An observer event (10_state.md R28, 45_host_interface.md R198). -/
inductive Event where
  /-- Emitted by HLT (43_control.md R141). -/
  | halt
  /-- Emitted by the unknown-opcode stop, with the 8-bit opcode value (60_exceptions.md R210). -/
  | unknownInstruction (v : Byte)
deriving DecidableEq, Repr

/-- Memory as the cells that do not hold 0, in rising order of address (canonical form: `Memory.wf`). -/
abbrev Memory := List Host.Cell

/-- The state of 10_state.md R20, under the spec's names. -/
structure State where
  /-- `A`, the accumulator: the only general register (R21). -/
  a : Byte
  /-- `PC`: the address of the next byte to fetch (R22). -/
  pc : Byte
  /-- `IR`: the most recently fetched opcode, diagnostic only (R24). -/
  ir : Byte
  /-- `RUN`: the execution-enabled flag, the only status bit (R25, R26). -/
  run : Bool
  /-- `MEM[0..255]` (R29). -/
  mem : Memory
  /-- `RST`: a reset has run since construction (R27). -/
  rst : Bool
  /-- `OBS`: the observer trace, oldest event first (R28). -/
  obs : List Event
deriving DecidableEq, Repr

/-- Reasons to stop with a fault. There is none: "No instruction faults" (00_scope.md R14), and a step "returns
normally in every case" (40_execution_cycle.md R84). Nothing raises one, so the type is empty (safe). -/
inductive Fault where
deriving DecidableEq, Repr

/-- Reasons to refuse a step. -/
inductive Refusal where
  /-- Raised by an arm of `exec` whose instruction has no meaning yet (safe). No arm raises it in this model. -/
  | notModelled (mnemonic : String)
  /-- Raised by a step issued while `RST = false`: the spec has the model refuse it, since `A`, `PC`, `IR` and `RUN`
  are then unspecified (40_execution_cycle.md R89, decision D4) (safe). -/
  | stepBeforeReset
deriving DecidableEq, Repr

/-- A processor right after its `n`-th construction: memory zero, `OBS` empty, `RST` false, the rest unspecified
(10_state.md R30; log entry 2). -/
def State.constructed (n : Nat) : State where
  a := Config.constructedA n
  pc := Config.constructedPC n
  ir := Config.constructedIR n
  run := Config.constructedRUN n
  mem := []
  rst := false
  obs := []

/-- The machine right after reset: constructed, then `reset`, with nothing loaded (10_state.md R30, R31). -/
def State.reset : State where
  a := 0
  pc := 0
  ir := 0
  run := true
  mem := []
  rst := true
  obs := []

end Sys2Proof.Machine
end

