-- ==== Sys2Proof/Machine/Flags.lean ====
section
/-! DEFINITION. Flags. The core has no condition codes: ADD and SUB set no flag, and no instruction tests one
(10_state.md R26). Its only status bit is `RUN` (R25), written here. -/

namespace Sys2Proof.Machine

/-- `RUN <- false`, the notation's `stop` (00_scope.md R11). -/
def State.clearRun (s : State) : State := { s with run := false }

/-- `RUN <- true`: done by `reset` alone (10_state.md R25). -/
def State.setRun (s : State) : State := { s with run := true }

end Sys2Proof.Machine
end

