-- ==== Sys2Proof/Machine/Ops.lean ====
section
/-! DEFINITION. The shared operations: memory, registers, the ALU, the observer, the opcode fetch, the
unknown-opcode stop and the reset operation. -/

namespace Sys2Proof.Machine

/-! ### Memory: a list of cells in one canonical form (20_memory.md R40 to R45; log entry 1) -/

/-- What an address that no cell lists reads as: memory is zero at construction (10_state.md R29, R30). -/
abbrev Memory.unlisted : Byte := 0

/-- `MemRead(a, 1)` (20_memory.md R42). -/
def Memory.read : Memory → Nat → Byte
  | [], _ => Memory.unlisted
  | (k, v) :: m, a => if k = a then v else Memory.read m a

/-- The memory without the cell at an address. -/
def Memory.erase (m : Memory) (a : Nat) : Memory := m.filter fun c => c.1 != a

/-- Puts a cell in front of the first one with no lower address. -/
def Memory.insert : Memory → Nat → Byte → Memory
  | [], a, v => [(a, v)]
  | (k, w) :: m, a, v =>
    if k < a then (k, w) :: Memory.insert m a v
    else (a, v) :: (k, w) :: m

/-- `MemWrite(a, 1, v)` (20_memory.md R43), keeping the canonical form: a cell that would hold the unlisted value is
not listed. -/
def Memory.write (m : Memory) (a : Nat) (v : Byte) : Memory :=
  if v = Memory.unlisted then m.erase a else (m.erase a).insert a v

/-- The canonical form above a lower bound: addresses strictly rising and below 256, no unlisted value listed. -/
def Memory.wfFrom : Nat → Memory → Bool
  | _, [] => true
  | lo, (k, v) :: m =>
    decide (lo ≤ k) && decide (k < Config.memorySize) && decide (v ≠ Memory.unlisted) && Memory.wfFrom (k + 1) m

/-- The canonical form of a memory. -/
def Memory.wf (m : Memory) : Bool := Memory.wfFrom 0 m

/-- `MEM[k + i] <- bytes[i]` for each byte, in rising order (45_host_interface.md R191). -/
def Memory.loadFrom : Nat → List Byte → Memory → Memory
  | _, [], m => m
  | k, b :: bs, m => Memory.loadFrom (k + 1) bs (m.write k b)

/-- Reads the byte at an 8-bit address (20_memory.md R42, R44). -/
def State.readByte (s : State) (addr : Byte) : Byte := s.mem.read addr.toNat

/-- Writes the byte at an 8-bit address; nothing else changes (20_memory.md R43). -/
def State.writeByte (s : State) (addr v : Byte) : State := { s with mem := s.mem.write addr.toNat v }

/-! ### The ALU (42_arithmetic.md R122, R123) -/

/-- `add(x, y) = (x + y) mod 256` (R122). -/
def aluAdd (x y : Byte) : Byte := BitVec.ofNat 8 ((x.toNat + y.toNat) % 256)

/-- `sub(x, y) = (x - y + 256) mod 256` (R122). -/
def aluSub (x y : Byte) : Byte := BitVec.ofNat 8 ((x.toNat + 256 - y.toNat) % 256)

/-- `inc(x) = (x + 1) mod 256` (00_scope.md R10, 10_state.md R22). -/
def inc (x : Byte) : Byte := BitVec.ofNat 8 ((x.toNat + 1) % 256)

/-! ### Registers and the observer (00_scope.md R9, R11) -/

/-- `A <- v`. -/
def State.setA (s : State) (v : Byte) : State := { s with a := v }

/-- `PC <- v`. -/
def State.setPC (s : State) (v : Byte) : State := { s with pc := v }

/-- `IR <- v`. -/
def State.setIR (s : State) (v : Byte) : State := { s with ir := v }

/-- `emit e`: appends an event to `OBS` (00_scope.md R11, 10_state.md R28). -/
def State.emit (s : State) (e : Event) : State := { s with obs := s.obs ++ [e] }

/-! ### The opcode fetch (40_execution_cycle.md R81) -/

/-- `IR <- MemRead(PC, 1); PC <- (PC + 1) mod 256`. -/
def State.fetchOpcode (s : State) : State := (s.setIR (s.readByte s.pc)).setPC (inc s.pc)

/-- The bytes of the instruction at `PC`: the opcode byte, and the next byte only where the opcode has an operand
(30_encoding.md R60, R64; 40_execution_cycle.md R83). -/
def State.fetchBytes (s : State) : List Byte :=
  if opcodeLength (s.readByte s.pc) = 1 then [s.readByte s.pc]
  else [s.readByte s.pc, s.readByte (inc s.pc)]

/-! ### The one anomaly, and the one way out of it -/

/-- The unknown-opcode stop (60_exceptions.md R210), after the fetch has set `IR <- v` and `PC <- inc(a)`. It is all
the trap entry the core has: it saves nothing more and goes nowhere (R215). -/
def State.unknownOpcodeStop (s : State) (v : Byte) : State :=
  (s.emit (.unknownInstruction v)).clearRun

/-- The reset operation (70_reset_and_hazards.md R230): memory and `OBS` are kept. It is the only way out of a stop;
there is no return from trap (60_exceptions.md R216). -/
def State.applyReset (s : State) : State :=
  { (((s.setA 0).setPC 0).setIR 0).setRun with rst := true }

/-! ### Placing an instruction where the next step fetches it -/

/-- Writes bytes at successive addresses from `addr` on, wrapping at 255 (10_state.md R22). -/
def State.placeAt (s : State) (addr : Byte) : List Byte → State
  | [] => s
  | b :: bs => (s.writeByte addr b).placeAt (inc addr) bs

end Sys2Proof.Machine
end

