-- ==== Sys2Proof/Machine/Operands.lean ====
section
/-! DEFINITION. The operand forms. There is one addressing mode, direct absolute (30_encoding.md R62,
41_data_transfer.md R102), and JMP's discarded operand (43_control.md R140). -/

namespace Sys2Proof.Machine

/-- The operand fetch moves `PC` past the operand byte (40_execution_cycle.md R83). The byte itself is in the decoded
instruction: it is a temporary of the step, kept in no register. -/
def State.passOperand (s : State) : State := s.setPC (inc s.pc)

/-- `EA = op`: the operand byte unchanged, no base, no scaling, no extension (30_encoding.md R62). -/
def effectiveAddress (op : Byte) : Byte := op

/-- The memory operand `MemRead(op, 1)` of LDA, ADD and SUB. -/
def State.memOperand (s : State) (op : Byte) : Byte := s.readByte (effectiveAddress op)

/-- JMP's target: the byte at the already incremented `PC`, not the operand (43_control.md R140). -/
def State.jumpTarget (s : State) : Byte := s.readByte s.pc

end Sys2Proof.Machine
end

