-- ==== Sys2Proof/Machine/Arithmetic.lean ====
section
/-! DEFINITION. The arithmetic instructions ADD and SUB (42_arithmetic.md): unsigned, modulo 256, no flag written.
Each meaning starts from the state the opcode fetch left. -/

namespace Sys2Proof.Machine

/-- ADD: `A <- (A + MemRead(op, 1)) mod 256` (R120). -/
def execAdd (op : Byte) (s : State) : Host.Outcome State Fault Refusal :=
  .next (s.passOperand.setA (aluAdd s.passOperand.a (s.passOperand.memOperand op)))

/-- SUB: `A <- (A - MemRead(op, 1)) mod 256`, accumulator minus memory (R121). -/
def execSub (op : Byte) (s : State) : Host.Outcome State Fault Refusal :=
  .next (s.passOperand.setA (aluSub s.passOperand.a (s.passOperand.memOperand op)))

end Sys2Proof.Machine
end

