-- ==== Sys2Proof/Machine/Control.lean ====
section
/-! DEFINITION. The control instructions JMP and HLT (43_control.md). Each meaning starts from the state the opcode
fetch left. -/

namespace Sys2Proof.Machine

/-- JMP: the operand is passed over and discarded; the target is the byte after it (R140, "Reproduce this
literally"; log entry 6). -/
def execJmp (_op : Byte) (s : State) : Host.Outcome State Fault Refusal :=
  .next (s.passOperand.setPC s.passOperand.jumpTarget)

/-- HLT: `RUN <- false; emit Halt` (R141). -/
def execHlt (s : State) : Host.Outcome State Fault Refusal :=
  .next (s.clearRun.emit .halt)

end Sys2Proof.Machine
end

