-- ==== Sys2Proof/Machine/DataTransfer.lean ====
section
/-! DEFINITION. The data transfer instructions LDA and STA (41_data_transfer.md). Each meaning starts from the
state the opcode fetch left: `IR` is the opcode and `PC` is `inc(a)`. -/

namespace Sys2Proof.Machine

/-- LDA: `A <- MemRead(op, 1)` (R100). -/
def execLda (op : Byte) (s : State) : Host.Outcome State Fault Refusal :=
  .next (s.passOperand.setA (s.passOperand.memOperand op))

/-- STA: `MemWrite(op, 1, A)` (R101). -/
def execSta (op : Byte) (s : State) : Host.Outcome State Fault Refusal :=
  .next (s.passOperand.writeByte (effectiveAddress op) s.passOperand.a)

end Sys2Proof.Machine
end

