-- ==== Sys2Proof/Machine/Dispatch.lean ====
section
/-! DEFINITION. The dispatch on a decoded instruction (40_execution_cycle.md R82, R85). The state is the one the opcode
fetch left. -/

namespace Sys2Proof.Machine

def exec (i : Instr) (s : State) : Host.Outcome State Fault Refusal :=
  match i with
  | .hlt => Sys2Proof.Machine.execHlt s
  | .lda op => Sys2Proof.Machine.execLda op s
  | .sta op => Sys2Proof.Machine.execSta op s
  | .add op => Sys2Proof.Machine.execAdd op s
  | .sub op => Sys2Proof.Machine.execSub op s
  | .jmp op => Sys2Proof.Machine.execJmp op s

end Sys2Proof.Machine
end

