-- ==== Sys2Proof/Machine/Cycle.lean ====
section
/-! DEFINITION. The fetch-decode-execute cycle (40_execution_cycle.md R80 to R85). -/

namespace Sys2Proof.Machine

/-- Decode and execute, after the opcode fetch (R82, R85). Memory has a byte at every address, so only the first two
arms are ever taken (`decode_fetchBytes` in Laws/Step.lean). -/
def State.executeFetched (s : State) : Host.Outcome State Fault Refusal :=
  match decode s.fetchBytes with
  | .instr i _ => exec i s.fetchOpcode
  | .illegal v => .next (s.fetchOpcode.unknownOpcodeStop v)
  | .noBytes => .next (s.fetchOpcode.unknownOpcodeStop s.fetchOpcode.ir)
  | .missingOperand v => .next (s.fetchOpcode.unknownOpcodeStop v)

/-- The complete step of R85: refused before the first reset (R89), nothing while halted (R80), otherwise exactly one
instruction. -/
def State.cycle (s : State) : Host.Outcome State Fault Refusal :=
  if s.rst = false then .refused .stepBeforeReset
  else if s.run = false then .next s
  else s.executeFetched

/-- A state whose next step runs the instruction these bytes encode: they stand at `PC`, and the core is reset and
running, which the step's gates need (R80, R89; log entry 4). -/
def State.readyToRun (s : State) (bytes : List Byte) : State :=
  { (s.placeAt s.pc bytes).setRun with rst := true }

end Sys2Proof.Machine
end

