-- ==== Sys2Proof/Machine/Step.lean ====
section
/-! DEFINITION. One step of the machine, and the host's way to place one instruction where it is fetched. -/

namespace Sys2Proof.Machine

/-- `step()` (40_execution_cycle.md R85): see `State.cycle`. -/
def step (s : State) : Host.Outcome State Fault Refusal := s.cycle

/-- The state whose very next step runs the instruction of a table word (log entry 4). -/
def State.withFetchWord (s : State) (nbits w : Nat) : State := s.readyToRun (tableBytes nbits w)

end Sys2Proof.Machine
end

