-- ==== Sys2Proof/Machine/Accesses.lean ====
section
/-! DEFINITION. The memory accesses of one step, in order (20_memory.md R51; 10_state.md R36). `step` does not use this
list: that it is the right one is a statement about both (log entry 8). -/

namespace Sys2Proof.Machine

/-- One one-byte access to memory (20_memory.md R42, R43). -/
inductive Access where
  | read (addr : Byte)
  | write (addr : Byte)
deriving DecidableEq, Repr

/-- The accesses after the opcode read, for the instruction of a mnemonic at address `a` with operand byte `op`: the
rows of R51. -/
def accessesAfterOpcode (m : Mnemonic) (a op : Byte) : List Access :=
  match m with
  | .hlt => []
  | .lda => [.read (inc a), .read op]
  | .sta => [.read (inc a), .write op]
  | .add => [.read (inc a), .read op]
  | .sub => [.read (inc a), .read op]
  | .jmp => [.read (inc a), .read (inc (inc a))]

/-- The accesses of the step issued in `s`, in order: none where it is refused or the core is halted (40_execution_cycle.md
R80), one where the opcode is unknown (R51). -/
def stepAccesses (s : State) : List Access :=
  if s.rst && s.run then
    match mnemonicOf (s.readByte s.pc) with
    | none => [.read s.pc]
    | some m => .read s.pc :: accessesAfterOpcode m s.pc (s.readByte (inc s.pc))
  else []

end Sys2Proof.Machine
end

