-- ==== Sys2Proof/Machine/Assembler.lean ====
section
/-! DEFINITION. The assembler, a pure function from text to bytes (44_assembler.md R160 to R178). A text is a sequence
of bytes; it uses the decoder's own table (00_scope.md R13; log entry 10). -/

namespace Sys2Proof.Machine

/-- Why a translation fails (R160, R174). -/
inductive AsmError where
  /-- `UnknownOpcodeError(token)`: the offending first token exactly (R166). -/
  | unknownOpcode (token : List Byte)
  /-- `InvalidOperandError(line)`: the original line without its LF (R169, R170, R174). -/
  | invalidOperand (line : List Byte)
deriving DecidableEq, Repr

/-- The result of a translation: the bytes, or an error that carries none (R160, R172, R173). -/
inductive AsmResult where
  | ok (bytes : List Byte)
  | err (e : AsmError)
deriving DecidableEq, Repr

/-- Line feed, the one line separator (R161). -/
def isLineFeed (c : Byte) : Bool := c == 0x0A

/-- The whitespace characters: HT, LF, VT, FF, CR and space (R162). -/
def isWhitespace (c : Byte) : Bool := decide (0x09 ≤ c.toNat ∧ c.toNat ≤ 0x0D) || c == 0x20

/-- The ASCII decimal digits `0`..`9` (R169). -/
def isDigit (c : Byte) : Bool := decide (0x30 ≤ c.toNat ∧ c.toNat ≤ 0x39)

/-- The character `;` (R164). -/
def semicolon : Byte := 0x3B

/-- Cuts a text at every character that `sep` names; the separators are in no piece, and there is always a last piece,
which may be empty. -/
def splitWhere (sep : Byte → Bool) : List Byte → List (List Byte)
  | [] => [[]]
  | c :: cs =>
    if sep c then [] :: splitWhere sep cs
    else
      match splitWhere sep cs with
      | [] => [[c]]
      | piece :: pieces => (c :: piece) :: pieces

/-- The lines of a text (R161). -/
def linesOf (text : List Byte) : List (List Byte) := splitWhere isLineFeed text

/-- The tokens of a line: its maximal non-empty runs of non-whitespace characters (R162). -/
def tokensOf (line : List Byte) : List (List Byte) :=
  (splitWhere isWhitespace line).filter fun token => !token.isEmpty

/-- How each mnemonic is spelled, in upper-case ASCII (30_encoding.md R70, 44_assembler.md R165). -/
def mnemonicText : Mnemonic → List Byte
  | .hlt => [0x48, 0x4C, 0x54]
  | .lda => [0x4C, 0x44, 0x41]
  | .sta => [0x53, 0x54, 0x41]
  | .add => [0x41, 0x44, 0x44]
  | .sub => [0x53, 0x55, 0x42]
  | .jmp => [0x4A, 0x4D, 0x50]

/-- Mnemonic lookup: byte for byte, case-sensitive (R165). -/
def mnemonicOfText (token : List Byte) : Option Mnemonic :=
  (lut.find? fun r => mnemonicText r.mnemonic == token).map LutRow.mnemonic

/-- The decimal value of a list of ASCII digits, the most significant first (R169). -/
def decimalValue (digits : List Byte) : Nat :=
  digits.foldl (fun n d => 10 * n + (d.toNat - 0x30)) 0

/-- The value of an operand token: accepted if and only if it is one or more ASCII digits and at most 255, leading zeros
allowed (R169). -/
def parseOperand (token : List Byte) : Option Byte :=
  if !token.isEmpty && token.all isDigit && decide (decimalValue token ≤ 255) then
    some (BitVec.ofNat 8 (decimalValue token))
  else none

/-- The operand part of a line that is not HLT's: the second token; what follows it is ignored (R169 to R171). -/
def assembleOperand (line : List Byte) (rest : List (List Byte)) (opcode : Byte) : AsmResult :=
  match rest with
  | [] => .err (.invalidOperand line)
  | token :: _ =>
    match parseOperand token with
    | none => .err (.invalidOperand line)
    | some op => .ok [opcode, op]

/-- Translates one line (R163 to R171). -/
def assembleLine (line : List Byte) : AsmResult :=
  match tokensOf line with
  | [] => .ok []
  | first :: rest =>
    if first.head? = some semicolon then .ok []
    else
      match mnemonicOfText first with
      | none => .err (.unknownOpcode first)
      | some m => if arityOf m = 0 then .ok [opcodeOf m] else assembleOperand line rest (opcodeOf m)

/-- Translates lines in order, up to the first that fails (R172, R173). -/
def assembleLines : List (List Byte) → AsmResult
  | [] => .ok []
  | line :: lines =>
    match assembleLine line with
    | .err e => .err e
    | .ok bytes =>
      match assembleLines lines with
      | .err e => .err e
      | .ok more => .ok (bytes ++ more)

/-- `assemble(text)` (R160, R175). The length of the output is not checked (R177). -/
def assemble (text : List Byte) : AsmResult := assembleLines (linesOf text)

end Sys2Proof.Machine
end

