-- ==== Sys2Proof/Machine/Run.lean ====
section
/-! DEFINITION. The run loop (40_execution_cycle.md R86 to R90). A run has no step limit; the bound here is the
executor's, and running out of it is a verdict of the executor, not a state of the core (R87; log entry 7). -/

namespace Sys2Proof.Machine

/-- `k` steps in a row, for a host that single-steps (60_exceptions.md R222). -/
def stepTimes : Nat → State → Host.Outcome State Fault Refusal
  | 0, s => .next s
  | k + 1, s =>
    match step s with
    | .next t => stepTimes k t
    | .fault f => .fault f
    | .refused r => .refused r

/-- What watching a run for some number of steps shows. -/
inductive RunVerdict where
  /-- The run ended in this final state (R90). -/
  | ended (final : State)
  /-- The bound was used up: the host abandons the run, and the core is in the state after the last completed step
  (R88). -/
  | abandoned (last : State)
  /-- A step was refused. No run meets this: it resets first (10_state.md R27). -/
  | refused (r : Refusal)
deriving DecidableEq, Repr

/-- `while RUN = true: step()` (R86), watched for at most so many steps. -/
def runLoop : Nat → State → RunVerdict
  | 0, s => if s.run then .abandoned s else .ended s
  | k + 1, s =>
    if s.run then
      match step s with
      | .next t => runLoop k t
      | .fault f => nomatch f
      | .refused r => .refused r
    else .ended s

/-- `run()`: reset, then the loop (R86), watched for at most so many steps. -/
def runFor (bound : Nat) (s : State) : RunVerdict := runLoop bound s.applyReset

/-- `run()` issued in `s` ends, with final state `t` (R90). -/
def State.RunEnds (s t : State) : Prop := ∃ bound, runFor bound s = .ended t

/-- `run()` issued in `s` never returns: however long it is watched, it is still running (R87). -/
def State.RunHangs (s : State) : Prop := ∀ bound, ∃ t, runFor bound s = .abandoned t

end Sys2Proof.Machine
end

