-- ==== Sys2Proof/Machine/Commands.lean ====
section
/-! DEFINITION. The host's commands (45_host_interface.md R190 to R197), each an atomic transition between steps, and
the informative command surface (R199; out of core scope by 00_scope.md R5). -/

namespace Sys2Proof.Machine

/-- The commands of R190. An address is any natural number and a value is a byte (decision D5; log entry 9). -/
inductive Command where
  | loadProgram (bytes : List Byte)
  | setMemory (address : Nat) (value : Byte)
  | getMemory (address : Nat)
  | reset
  | step
  | run
  | statusRead
deriving DecidableEq, Repr

/-- What the status read shows (R197). -/
structure Status where
  a : Byte
  pc : Byte
  ir : Byte
  run : Bool
deriving DecidableEq, Repr

/-- What a command returns (R191 to R197, R200). -/
inductive Response where
  | nothing
  | byte (v : Byte)
  | status (st : Status)
  /-- `run()` has not returned, and the host has abandoned it (R88). -/
  | runAbandoned
deriving DecidableEq, Repr

/-- `load_program(bytes)`: copies the first 256 bytes from address 0 on, drops the rest (R191). -/
def State.loadProgram (s : State) (bytes : List Byte) : State :=
  { s with mem := s.mem.loadFrom 0 (bytes.take Config.memorySize) }

/-- `set_memory(address, value)`: nothing happens where the address is 256 or more (R192). -/
def State.setMemory (s : State) (address : Nat) (value : Byte) : State :=
  if address < Config.memorySize then { s with mem := s.mem.write address value } else s

/-- `get_memory(address)`: 0 where the address is 256 or more (R193). -/
def State.getMemory (s : State) (address : Nat) : Byte :=
  if address < Config.memorySize then s.mem.read address else 0

/-- The status read (R197). -/
def State.statusRead (s : State) : Status := { a := s.a, pc := s.pc, ir := s.ir, run := s.run }

/-- Performs one command: the state after it and what it returns. `bound` is how many steps the host lets a `run` take
before it abandons it from outside (R88); the other commands do not use it. Only a `step` before the first reset is
refused (R190). -/
def perform (bound : Nat) (c : Command) (s : State) : Host.Outcome (State × Response) Fault Refusal :=
  match c with
  | .loadProgram bytes => .next (s.loadProgram bytes, .nothing)
  | .setMemory address value => .next (s.setMemory address value, .nothing)
  | .getMemory address => .next (s, .byte (s.getMemory address))
  | .reset => .next (s.applyReset, .nothing)
  | .step =>
    match Sys2Proof.Machine.step s with
    | .next t => .next (t, .nothing)
    | .fault f => .fault f
    | .refused r => .refused r
  | .run =>
    match runFor bound s with
    | .ended t => .next (t, .nothing)
    | .abandoned t => .next (t, .runAbandoned)
    | .refused r => .refused r
  | .statusRead => .next (s, .status s.statusRead)

/-- A list of commands, one after another, each completing before the next (R190). -/
def performAll (bound : Nat) : List Command → State → Host.Outcome State Fault Refusal
  | [], s => .next s
  | c :: cs, s =>
    match perform bound c s with
    | .next (t, _) => performAll bound cs t
    | .fault f => .fault f
    | .refused r => .refused r

/-- The final-state dump of the command surface: "accumulator, program counter, instruction register, first 16 memory
bytes" (R198, R199, informative). Its text is not specified. -/
structure Dump where
  a : Byte
  pc : Byte
  ir : Byte
  firstBytes : List Byte
deriving DecidableEq, Repr

/-- The dump of a state. -/
def State.dump (s : State) : Dump :=
  { a := s.a, pc := s.pc, ir := s.ir, firstBytes := (List.range 16).map s.getMemory }

/-- The command surface's `run` mode on the bytes of a file and a fresh processor: load, pre-seed addresses 10 and 11, run
(R199, informative; decision D19). -/
def surfaceRun (bound : Nat) (fresh : State) (file : List Byte) : RunVerdict :=
  runFor bound (((fresh.loadProgram file).setMemory 10 5).setMemory 11 3)

end Sys2Proof.Machine
end

