-- ==== Sys2Proof/Safety.lean ====
section
/-! DEFINITION. The terms claims use: what every step and command keeps, the states the host can reach, and frames. -/

namespace Sys2Proof.Machine

/-- An event the core can emit: `UnknownInstruction(v)` only with `v` in 0x06..0xFF (45_host_interface.md R198). -/
def Event.legal : Event → Bool
  | .halt => true
  | .unknownInstruction v => decide (0x06 ≤ v.toNat)

/-- What a stopped core shows of how it stopped: the last event is `Halt` and `IR` is 0x00, or the last event is
`UnknownInstruction(v)` and `IR` is `v` (10_state.md R24, 40_execution_cycle.md R90). -/
def State.stopExplained (s : State) : Bool :=
  match s.obs.getLast? with
  | some .halt => s.ir == 0x00
  | some (.unknownInstruction v) => s.ir == v
  | none => false

/-- The invariant: memory is canonical, every event is one the core can emit, and a core that has been reset and is
halted shows how it stopped. -/
def State.Inv (s : State) : Prop :=
  s.mem.wf = true ∧ s.obs.all Event.legal = true ∧ (s.rst = true → s.run = false → s.stopExplained = true)

/-- A stop shown in full, as a run's final state shows it (40_execution_cycle.md R90): the opcode in `IR` stands at
`PC - 1`, and either the last event is `Halt` and the opcode is HLT's, or it is `UnknownInstruction(IR)` and the opcode is
unknown. A host's later write to that cell can end it, so it is no part of `Inv`. -/
def State.StopShown (s : State) : Prop :=
  s.readByte (s.pc - 1) = s.ir ∧
    ((s.obs.getLast? = some .halt ∧ s.ir = 0x00) ∨
      (s.obs.getLast? = some (.unknownInstruction s.ir) ∧ 0x06 ≤ s.ir.toNat))

/-- The states a host can bring a processor to: construct it, then issue commands (45_host_interface.md R190, R200). -/
inductive Reachable : State → Prop where
  | construct (n : Nat) : Reachable (State.constructed n)
  | command (bound : Nat) (c : Command) (s t : State) (r : Response) :
      Reachable s → perform bound c s = .next (t, r) → Reachable t

/-- Every address, in or out of the address space, reads in `t` as it does in `s`. -/
def SameMemory (s t : State) : Prop := ∀ x : Nat, t.mem.read x = s.mem.read x

/-- All of the state but memory is equal. -/
def SameRegisters (s t : State) : Prop :=
  t.a = s.a ∧ t.pc = s.pc ∧ t.ir = s.ir ∧ t.run = s.run ∧ t.rst = s.rst ∧ t.obs = s.obs

end Sys2Proof.Machine
end

