-- ==== Sys2Proof/Certificates/Slice0/Obligations.lean ====
section
/-! DEFINITION. The statements for the provers. -/

open Sys2Proof Sys2Proof.Machine

/-! ### One step, instruction by instruction -/

/-- LDA (R100): a running step over opcode 0x01 loads `A` from the address in the operand byte; `PC` passes both bytes,
`IR` is the opcode, nothing else changes. -/
def Obligations.StepLdaLoadsAccumulator : Prop :=
  ∀ s : State, s.rst = true → s.run = true → s.readByte s.pc = 0x01 →
    step s = .next { s with ir := 0x01, pc := s.pc + 2, a := s.readByte (s.readByte (s.pc + 1)) }

/-- STA (R101): a running step over opcode 0x02 stores `A` at the address in the operand byte, read before the store;
`A` is kept, `PC` passes both bytes, every other byte reads as before. Where the store hits the next opcode, the byte at the
new `PC` is the stored one. -/
def Obligations.StepStaStoresAccumulator : Prop :=
  ∀ s : State, s.rst = true → s.run = true → s.readByte s.pc = 0x02 →
    ∃ t, step s = .next t ∧
      t.a = s.a ∧ t.pc = s.pc + 2 ∧ t.ir = 0x02 ∧ t.run = true ∧ t.rst = true ∧ t.obs = s.obs ∧
      t.readByte (s.readByte (s.pc + 1)) = s.a ∧
      (∀ x : Nat, x ≠ (s.readByte (s.pc + 1)).toNat → t.mem.read x = s.mem.read x) ∧
      (s.readByte (s.pc + 1) = s.pc + 2 → t.readByte t.pc = s.a)

/-- ADD (R120): a running step over opcode 0x03 adds the addressed byte to `A` modulo 256. -/
def Obligations.StepAddWrapsModulo256 : Prop :=
  ∀ s : State, s.rst = true → s.run = true → s.readByte s.pc = 0x03 →
    ∃ v : Byte, v.toNat = (s.a.toNat + (s.readByte (s.readByte (s.pc + 1))).toNat) % 256 ∧
      step s = .next { s with ir := 0x03, pc := s.pc + 2, a := v }

/-- SUB (R121): a running step over opcode 0x04 subtracts the addressed byte from `A` modulo 256, accumulator minus
memory. -/
def Obligations.StepSubWrapsModulo256 : Prop :=
  ∀ s : State, s.rst = true → s.run = true → s.readByte s.pc = 0x04 →
    ∃ v : Byte, (v.toNat : Int) = ((s.a.toNat : Int) - (s.readByte (s.readByte (s.pc + 1))).toNat) % 256 ∧
      step s = .next { s with ir := 0x04, pc := s.pc + 2, a := v }

/-- JMP (R140): a running step over opcode 0x05 goes to the byte after the operand, and the operand plays no part. -/
def Obligations.StepJmpTakesByteAfterOperand : Prop :=
  ∀ s : State, s.rst = true → s.run = true → s.readByte s.pc = 0x05 →
    step s = .next { s with ir := 0x05, pc := s.readByte (s.pc + 2) }

/-- HLT (R141): a running step over opcode 0x00 clears `RUN` and emits `Halt`; `PC` stays one past it, later steps do
nothing, and `reset` makes the core run again at address 0. -/
def Obligations.StepHltStopsAndNotifies : Prop :=
  ∀ s : State, s.rst = true → s.run = true → s.readByte s.pc = 0x00 →
    ∃ t, step s = .next t ∧
      t = { s with ir := 0x00, pc := s.pc + 1, run := false, obs := s.obs ++ [.halt] } ∧
      (∀ k, stepTimes k t = .next t) ∧ t.applyReset.run = true ∧ t.applyReset.pc = 0x00

/-- The unknown-opcode stop (R210; the event's name is decision D18): a running step over a byte 0x06..0xFF returns normally
with `IR` that byte, `PC` one past it, `RUN` cleared and the event appended; nothing else changes. -/
def Obligations.StepUnknownOpcodeStops : Prop :=
  ∀ s : State, s.rst = true → s.run = true → 0x06 ≤ (s.readByte s.pc).toNat →
    step s = .next { s with
      ir := s.readByte s.pc, pc := s.pc + 1, run := false
      obs := s.obs ++ [.unknownInstruction (s.readByte s.pc)] }

/-! ### The meanings: completion, result and frame

`s` is the state the opcode fetch left (log entry 5): `IR` is set and `PC` is at the operand byte. -/

/-- `exec` of LDA completes in every state: `A` is the addressed byte, `PC` passes the operand, all else is as before. -/
def Obligations.ExecLdaCompletes : Prop :=
  ∀ (op : Byte) (s : State), ∃ t, exec (.lda op) s = .next t ∧
    t.a = s.readByte op ∧ t.pc = s.pc + 1 ∧ t.ir = s.ir ∧ t.run = s.run ∧ t.rst = s.rst ∧ t.obs = s.obs ∧
    SameMemory s t

/-- `exec` of STA completes in every state: the byte at the effective address is `A`, every other byte reads as before, `PC`
passes the operand, no other register changes. -/
def Obligations.ExecStaCompletes : Prop :=
  ∀ (op : Byte) (s : State), ∃ t, exec (.sta op) s = .next t ∧
    t.a = s.a ∧ t.pc = s.pc + 1 ∧ t.ir = s.ir ∧ t.run = s.run ∧ t.rst = s.rst ∧ t.obs = s.obs ∧
    t.mem.read (effectiveAddress op).toNat = s.a ∧ effectiveAddress op = op ∧
    ∀ x : Nat, x ≠ (effectiveAddress op).toNat → t.mem.read x = s.mem.read x

/-- `exec` of ADD completes in every state, with the sum modulo 256; all else is as before. -/
def Obligations.ExecAddCompletes : Prop :=
  ∀ (op : Byte) (s : State), ∃ t, exec (.add op) s = .next t ∧
    t.a.toNat = (s.a.toNat + (s.readByte op).toNat) % 256 ∧
    t.pc = s.pc + 1 ∧ t.ir = s.ir ∧ t.run = s.run ∧ t.rst = s.rst ∧ t.obs = s.obs ∧ SameMemory s t

/-- `exec` of SUB completes in every state, with the difference modulo 256; all else is as before. -/
def Obligations.ExecSubCompletes : Prop :=
  ∀ (op : Byte) (s : State), ∃ t, exec (.sub op) s = .next t ∧
    (t.a.toNat : Int) = ((s.a.toNat : Int) - (s.readByte op).toNat) % 256 ∧
    t.pc = s.pc + 1 ∧ t.ir = s.ir ∧ t.run = s.run ∧ t.rst = s.rst ∧ t.obs = s.obs ∧ SameMemory s t

/-- `exec` of JMP completes in every state, for every operand with the same result: `PC` is the byte after the operand; all
else is as before. -/
def Obligations.ExecJmpCompletes : Prop :=
  ∀ (op : Byte) (s : State), ∃ t, exec (.jmp op) s = .next t ∧
    t.pc = s.readByte (s.pc + 1) ∧
    t.a = s.a ∧ t.ir = s.ir ∧ t.run = s.run ∧ t.rst = s.rst ∧ t.obs = s.obs ∧ SameMemory s t

/-- `exec` of HLT completes in every state: `RUN` is cleared and `Halt` appended; all else is as before. -/
def Obligations.ExecHltCompletes : Prop :=
  ∀ s : State, ∃ t, exec .hlt s = .next t ∧
    t.run = false ∧ t.obs = s.obs ++ [.halt] ∧
    t.a = s.a ∧ t.pc = s.pc ∧ t.ir = s.ir ∧ t.rst = s.rst ∧ SameMemory s t

/-- The ALU and the increment (R122) on all operands: addition, subtraction and the address increment wrap modulo 256. -/
def Obligations.AluComputesModulo256 : Prop :=
  ∀ x y : Byte,
    (aluAdd x y).toNat = (x.toNat + y.toNat) % 256 ∧
    (aluSub x y).toNat = (x.toNat - y.toNat + 256 : Int) % 256 ∧
    (inc x).toNat = (x.toNat + 1) % 256

/-! ### The step as a whole -/

/-- The step gate (R80): a halted core is unchanged by any number of steps, and such a step reads no memory. -/
def Obligations.HaltedCoreStaysHalted : Prop :=
  ∀ s : State, s.rst = true → s.run = false →
    stepAccesses s = [] ∧ ∀ k, stepTimes k s = .next s

/-- A step runs the decoded instruction: where the two bytes at `PC` decode to `i`, a running step is `exec` of `i` after
the opcode fetch has set `IR` and moved `PC` past the opcode byte (R81, R82). -/
def Obligations.StepRunsDecodedInstruction : Prop :=
  ∀ (s : State) (i : Instr) (rest : List Byte), s.rst = true → s.run = true →
    decode [s.readByte s.pc, s.readByte (s.pc + 1)] = .instr i rest →
    step s = exec i { s with ir := s.readByte s.pc, pc := s.pc + 1 }

/-- `IR` after a running step is the opcode byte that step fetched, whatever it is, even if the step overwrote that cell
(R24, R81). -/
def Obligations.InstructionRegisterHoldsFetchedOpcode : Prop :=
  ∀ s : State, s.rst = true → s.run = true → ∃ t, step s = .next t ∧ t.ir = s.readByte s.pc

/-- `PC` after a running step, by opcode (the table of R23, which the spec derives). -/
def Obligations.ProgramCounterAfterStep : Prop :=
  ∀ s : State, s.rst = true → s.run = true → ∃ t, step s = .next t ∧
    t.pc =
      (if (s.readByte s.pc).toNat = 0 ∨ 6 ≤ (s.readByte s.pc).toNat then s.pc + 1
      else if (s.readByte s.pc).toNat = 5 then s.readByte (s.pc + 2)
      else s.pc + 2)

/-- After the first reset every step returns normally, and leaves `RST` set (R84 with R27; the gate on `RST` is decision
D4). -/
def Obligations.StepReturnsNormally : Prop :=
  ∀ s : State, s.rst = true → ∃ t, step s = .next t ∧ t.rst = true

/-- A step is refused exactly before the first reset, and for that reason (R89, decision D4). -/
def Obligations.StepRefusedExactlyBeforeReset : Prop :=
  ∀ (s : State) (r : Refusal), step s = .refused r ↔ s.rst = false ∧ r = .stepBeforeReset

/-- `RUN` is cleared by HLT and by an unknown opcode, by no other step, and set by none (R25, R88). -/
def Obligations.RunFlagClearedOnlyByHltOrUnknown : Prop :=
  ∀ s t : State, step s = .next t →
    (t.run = true ↔ s.run = true ∧ 1 ≤ (s.readByte s.pc).toNat ∧ (s.readByte s.pc).toNat ≤ 5)

/-- A step changes `A` only over LDA, ADD or SUB (R21, R36). -/
def Obligations.AccumulatorWrittenOnlyByLdaAddSub : Prop :=
  ∀ s t : State, step s = .next t →
    s.readByte s.pc ≠ 0x01 → s.readByte s.pc ≠ 0x03 → s.readByte s.pc ≠ 0x04 → t.a = s.a

/-- A step changes memory only over STA in a running core, and then only at the operand's address (R36, R43). -/
def Obligations.MemoryWrittenOnlyBySta : Prop :=
  ∀ (s t : State) (x : Nat), step s = .next t → t.mem.read x ≠ s.mem.read x →
    s.run = true ∧ s.readByte s.pc = 0x02 ∧ x = (s.readByte (s.pc + 1)).toNat

/-- What a step appends to `OBS` (R28, R198, R214): `Halt` over HLT, `UnknownInstruction(v)` over an unknown opcode `v`,
nothing else; never more than one event. -/
def Obligations.StepAppendsAtMostOneEvent : Prop :=
  ∀ s t : State, step s = .next t →
    t.obs = s.obs ++
      (if s.run = false then []
      else if (s.readByte s.pc).toNat = 0 then [.halt]
      else if 6 ≤ (s.readByte s.pc).toNat then [.unknownInstruction (s.readByte s.pc)]
      else [])

/-- Fetch coherence (R54): after an STA to the address of the next opcode, the next step fetches the stored byte. -/
def Obligations.NextFetchSeesStore : Prop :=
  ∀ s : State, s.rst = true → s.run = true → s.readByte s.pc = 0x02 → s.readByte (s.pc + 1) = s.pc + 2 →
    ∃ t u, step s = .next t ∧ step t = .next u ∧ u.ir = s.a

/-- The corner of R140: a JMP whose target byte is its own address jumps to itself for ever: after any number of steps
the core is still running, at the same address and with the same memory. -/
def Obligations.SelfJumpNeverStops : Prop :=
  ∀ s : State, s.rst = true → s.run = true → s.readByte s.pc = 0x05 → s.readByte (s.pc + 2) = s.pc →
    ∀ k, ∃ t, stepTimes k s = .next t ∧ t.run = true ∧ t.pc = s.pc ∧ t.a = s.a ∧ t.mem = s.mem ∧ t.obs = s.obs

/-- The access table (R51, R36) lists every read a step depends on: two states with equal registers that agree on the bytes
the list reads have the same accesses and outcomes with equal registers, which agree on the bytes the list writes. -/
def Obligations.StepDependsOnlyOnListedReads : Prop :=
  ∀ s u : State, SameRegisters s u →
    (∀ x : Byte, Access.read x ∈ stepAccesses s → u.readByte x = s.readByte x) →
    stepAccesses u = stepAccesses s ∧
    ∀ t, step s = .next t → ∃ w, step u = .next w ∧ SameRegisters t w ∧
      ∀ x : Byte, Access.write x ∈ stepAccesses s → w.readByte x = t.readByte x

/-- The access table (R51) lists every write: a byte the list does not write reads as before. -/
def Obligations.StepWritesOnlyListedAddresses : Prop :=
  ∀ (s t : State) (x : Byte), step s = .next t → Access.write x ∉ stepAccesses s → t.readByte x = s.readByte x

/-! ### Encoding -/

/-- Decode and encode agree, both ways: bytes decode to an instruction with some bytes left if and only if they are that
instruction's encoding followed by those bytes, for every instruction and operand. -/
def Obligations.DecodeEncodeAgree : Prop :=
  ∀ (i : Instr) (bytes rest : List Byte), i.wellFormed = true →
    (decode bytes = .instr i rest ↔ bytes = encode i ++ rest)

/-- The look-up table (R63, R64): which opcode is whose, each mnemonic's opcode being the byte it decodes from; exactly the bytes
0x00..0x05 are opcodes; HLT alone has no operand byte; a byte's instruction length is 2 for 0x01..0x05 and 1 otherwise. -/
def Obligations.LookUpTableIsExact : Prop :=
  (mnemonicOf 0x00 = some .hlt ∧ mnemonicOf 0x01 = some .lda ∧ mnemonicOf 0x02 = some .sta ∧
    mnemonicOf 0x03 = some .add ∧ mnemonicOf 0x04 = some .sub ∧ mnemonicOf 0x05 = some .jmp) ∧
  (∀ (v : Byte) (m : Mnemonic), mnemonicOf v = some m ↔ v = opcodeOf m) ∧
  (∀ v : Byte, mnemonicOf v = none ↔ 0x06 ≤ v.toNat) ∧
  (∀ m : Mnemonic, arityOf m = if m = .hlt then 0 else 1) ∧
  (∀ v : Byte, opcodeLength v = if v = 0x00 ∨ 0x06 ≤ v.toNat then 1 else 2)

/-- Words written out from the encodings of R61 and R63 decode to what they stand for. -/
def Obligations.EncodedWordsDecode : Prop :=
  decodeTableWord 8 0b00000000 = some .hlt ∧
  decodeTableWord 16 0b0000101000000001 = some (.lda 0x0A) ∧
  decodeTableWord 16 0b1000000000000010 = some (.sta 0x80) ∧
  decodeTableWord 16 0b0101000000000011 = some (.add 0x50) ∧
  decodeTableWord 16 0b1111111100000100 = some (.sub 0xFF) ∧
  decodeTableWord 16 0b0100000000000101 = some (.jmp 0x40) ∧
  decodeTableWord 8 0b00000110 = none

/-- A program laid end to end parses back to exactly its instructions (R67). -/
def Obligations.ProgramParsesBack : Prop :=
  ∀ p : List Instr, parseProgram (encodeProgram p) = some p

/-! ### The invariant -/

/-- The state after reset meets the invariant, and it is what `reset` makes of any fresh construction (R30, R31). -/
def Obligations.ResetStateMeetsInvariant : Prop :=
  State.reset.Inv ∧ ∀ n, (State.constructed n).applyReset = State.reset

/-- Every step keeps the invariant: canonical memory, legal events only, and a halted core whose last event and `IR` say
how it stopped (R24, R90, R198). -/
def Obligations.StepKeepsInvariant : Prop :=
  ∀ s t : State, s.Inv → step s = .next t → t.Inv

/-- Every command of the host keeps the invariant, `run` included, however long the host lets it run. -/
def Obligations.CommandsKeepInvariant : Prop :=
  ∀ (bound : Nat) (c : Command) (s t : State) (r : Response), s.Inv → perform bound c s = .next (t, r) → t.Inv

/-- Every step keeps the explanation of a stop (R90): if a halted core shows at `PC - 1` the opcode in `IR` and by its last
event how it stopped, then so does a core halted after the step. A running core meets this whatever it holds. -/
def Obligations.StepKeepsStopShown : Prop :=
  ∀ s t : State, (s.run = false → s.StopShown) → step s = .next t → t.run = false → t.StopShown

/-- Every state a host can reach by constructing a processor and issuing commands, `run` included, meets the invariant. -/
def Obligations.ReachableStatesMeetInvariant : Prop :=
  ∀ s : State, Reachable s → s.Inv

/-- The canonical form (log entry 1): two canonical memories that read alike at every address are equal data. -/
def Obligations.CanonicalMemoryIsUnique : Prop :=
  ∀ m n : Memory, m.wf = true → n.wf = true → (∀ x : Nat, m.read x = n.read x) → m = n

/-! ### Reset and the host's commands -/

/-- The reset operation (R230, R31): `A`, `PC`, `IR` are 0 and `RUN` is set, from any state; memory and `OBS` are kept.
`RST` is set (decision D4) and `OBS` kept (decision D8): those two clauses are the spec's own choices. -/
def Obligations.ResetClearsRegistersKeepsMemory : Prop :=
  ∀ (bound : Nat) (s : State), ∃ t, perform bound .reset s = .next (t, .nothing) ∧
    t.a = 0x00 ∧ t.pc = 0x00 ∧ t.ir = 0x00 ∧ t.run = true ∧ t.mem = s.mem ∧ t.rst = true ∧ t.obs = s.obs

/-- `load_program` (R191): address `x` below 256 reads the program's byte `x` where there is one and what it held before
where there is none; bytes past 256 are dropped; no register changes. -/
def Obligations.LoadProgramCopiesFromZero : Prop :=
  ∀ (bound : Nat) (bytes : List Byte) (s : State), ∃ t, perform bound (.loadProgram bytes) s = .next (t, .nothing) ∧
    SameRegisters s t ∧ ∀ x : Nat, t.mem.read x = if x < 256 then (bytes[x]?).getD (s.mem.read x) else s.mem.read x

/-- `set_memory` (R192): writes one byte below 256, does nothing at 256 and above; no register changes. -/
def Obligations.SetMemoryWritesOneByte : Prop :=
  ∀ (bound address : Nat) (value : Byte) (s : State), ∃ t,
    perform bound (.setMemory address value) s = .next (t, .nothing) ∧
    (256 ≤ address → t = s) ∧ SameRegisters s t ∧
    ∀ x : Nat, t.mem.read x = if x = address ∧ address < 256 then value else s.mem.read x

/-- `get_memory` (R193) and the status read (R197) answer what the state holds, 0 at 256 and above, and change nothing. What
the status read answers before the first reset is left open (R197, U2): there the statement says only that it answers
and changes nothing. -/
def Obligations.ReadCommandsChangeNothing : Prop :=
  ∀ (bound : Nat) (s : State),
    (∀ x : Byte, perform bound (.getMemory x.toNat) s = .next (s, .byte (s.readByte x))) ∧
    (∀ x : Nat, 256 ≤ x → perform bound (.getMemory x) s = .next (s, .byte 0)) ∧
    (∃ st, perform bound .statusRead s = .next (s, .status st)) ∧
    (s.rst = true →
      perform bound .statusRead s = .next (s, .status { a := s.a, pc := s.pc, ir := s.ir, run := s.run }))

/-- Of all commands only a `step` before the first reset is refused; `run` never is (R190, R27, decision D4). -/
def Obligations.OnlyEarlyStepIsRefused : Prop :=
  ∀ (bound : Nat) (c : Command) (s : State) (r : Refusal),
    perform bound c s = .refused r ↔ c = .step ∧ s.rst = false ∧ r = .stepBeforeReset

/-- `OBS` only grows, whatever the host does, and only `step` and `run` make it grow (R28, R200). -/
def Obligations.CommandsOnlyExtendTrace : Prop :=
  ∀ (bound : Nat) (c : Command) (s t : State) (r : Response), perform bound c s = .next (t, r) →
    ∃ es : List Event, t.obs = s.obs ++ es ∧ (c ≠ .step → c ≠ .run → es = [])

/-! ### The run loop -/

/-- `run` is reset and then steps while `RUN` is set (R86). It ends in `t` within the bound if and only if, for some number of
steps up to the bound, that many steps from the reset state give `t`, halted, and the core was running after every smaller
number. The host abandons it in `t` if and only if the bound's number of steps gives `t`, still running (R88, decision
D3). -/
def Obligations.RunIsResetThenSteps : Prop :=
  ∀ (bound : Nat) (s t : State),
    (runFor bound s = .ended t ↔ ∃ k, k ≤ bound ∧ stepTimes k s.applyReset = .next t ∧ t.run = false ∧
      ∀ j, j < k → ∃ u, stepTimes j s.applyReset = .next u ∧ u.run = true) ∧
    (runFor bound s = .abandoned t ↔ stepTimes bound s.applyReset = .next t ∧ t.run = true)

/-- A run depends on memory and the trace alone: because it resets first, whatever registers, flags or reset history two
states have, their runs are the same (R86). -/
def Obligations.RunForgetsRegisters : Prop :=
  ∀ (bound : Nat) (s u : State), u.mem = s.mem → u.obs = s.obs → runFor bound u = runFor bound s

/-- A run has at most one final state, and watching it for longer does not change it (R86, R90). -/
def Obligations.RunHasOneFinalState : Prop :=
  (∀ (bound more : Nat) (s t : State), runFor bound s = .ended t → runFor (bound + more) s = .ended t) ∧
  (∀ s t u : State, s.RunEnds t → s.RunEnds u → t = u)

/-- Every run either ends or hangs, never both (R87). -/
def Obligations.RunEndsOrHangs : Prop :=
  ∀ s : State, s.RunHangs ↔ ¬ ∃ t, s.RunEnds t

/-- A final state says how the run ended (R90): it is halted, the opcode in `IR` stands at `PC - 1`, and either the last
event is `Halt` and the opcode is HLT's, or the last event is `UnknownInstruction(IR)` and the opcode is unknown. -/
def Obligations.FinalStateExplainsStop : Prop :=
  ∀ s t : State, s.RunEnds t → t.run = false ∧ t.StopShown

/-! ### The assembler -/

/-- Lines (R161): a text is its lines with an LF between each two, and no line holds an LF. -/
def Obligations.LinesRejoinToText : Prop :=
  ∀ text : List Byte,
    [(0x0A : Byte)].intercalate (linesOf text) = text ∧ ∀ line ∈ linesOf text, (0x0A : Byte) ∉ line

/-- Tokens (R162): a non-empty run of other characters is one token, and a whitespace character cuts a line in two. -/
def Obligations.TokensAreMaximalRuns : Prop :=
  (∀ run : List Byte, run ≠ [] → (∀ c ∈ run, c ∉ [0x20, 0x09, 0x0A, 0x0B, 0x0C, 0x0D]) → tokensOf run = [run]) ∧
  tokensOf [] = [] ∧
  (∀ (l₁ l₂ : List Byte) (c : Byte), c ∈ ([0x20, 0x09, 0x0A, 0x0B, 0x0C, 0x0D] : List Byte) →
    tokensOf (l₁ ++ c :: l₂) = tokensOf l₁ ++ tokensOf l₂)

/-- Blank and comment lines (R163, R164) emit nothing and cannot fail. -/
def Obligations.BlankAndCommentLinesSkipped : Prop :=
  ∀ line : List Byte, (0x0A : Byte) ∉ line →
    (tokensOf line = [] ∨ ∃ rest tokens, tokensOf line = (0x3B :: rest) :: tokens) → assemble line = .ok []

/-- An unknown mnemonic (R165, R166): a first token that is none of the six spellings HLT, LDA, STA, ADD, SUB and JMP, written
out in ASCII, fails with that token exactly. -/
def Obligations.UnknownMnemonicFails : Prop :=
  ∀ (line token : List Byte) (tokens : List (List Byte)), (0x0A : Byte) ∉ line → tokensOf line = token :: tokens →
    token.head? ≠ some 0x3B →
    token ∉ ([[0x48, 0x4C, 0x54], [0x4C, 0x44, 0x41], [0x53, 0x54, 0x41], [0x41, 0x44, 0x44], [0x53, 0x55, 0x42],
      [0x4A, 0x4D, 0x50]] : List (List Byte)) →
    assemble line = .err (.unknownOpcode token)

/-- HLT lines (R168) assemble to 0x00 whatever tokens follow. -/
def Obligations.HltLineIgnoresTrailingTokens : Prop :=
  ∀ (line : List Byte) (tokens : List (List Byte)), (0x0A : Byte) ∉ line →
    tokensOf line = [0x48, 0x4C, 0x54] :: tokens → assemble line = .ok [0x00]

/-- The other five (R165, R167, R169 to R171), each by its spelling in ASCII and its opcode: LDA 0x01, STA 0x02, ADD 0x03, SUB
0x04, JMP 0x05. A line assembles to the opcode byte and the second token's value, whatever tokens follow; an operand that is
missing or not accepted fails with the whole line. -/
def Obligations.OperandLineAssembles : Prop :=
  ∀ (spelling : List Byte) (opcode : Byte) (line : List Byte) (tokens : List (List Byte)),
    (spelling, opcode) ∈ ([([0x4C, 0x44, 0x41], 0x01), ([0x53, 0x54, 0x41], 0x02), ([0x41, 0x44, 0x44], 0x03),
      ([0x53, 0x55, 0x42], 0x04), ([0x4A, 0x4D, 0x50], 0x05)] : List (List Byte × Byte)) →
    (0x0A : Byte) ∉ line → tokensOf line = spelling :: tokens →
    (tokens = [] → assemble line = .err (.invalidOperand line)) ∧
    (∀ token more, tokens = token :: more →
      (parseOperand token = none → assemble line = .err (.invalidOperand line)) ∧
      (∀ v, parseOperand token = some v → assemble line = .ok [opcode, v]))

/-- The operand grammar (R169, decision D12): accepted with value `v` if and only if it is one or more ASCII digits whose
decimal value is `v`, a byte; anything else is not. -/
def Obligations.OperandGrammarIsDecimalByte : Prop :=
  ∀ (token : List Byte) (v : Byte),
    parseOperand token = some v ↔
      token ≠ [] ∧ (∀ c ∈ token, 0x30 ≤ c.toNat ∧ c.toNat ≤ 0x39) ∧
      Nat.ofDigits 10 (token.reverse.map fun c => c.toNat - 0x30) = v.toNat

/-- Translation goes line by line (R161, R172, R173): two texts joined by an LF assemble to the bytes of both, or fail as the
first that fails does, with no bytes. -/
def Obligations.AssembleJoinsTexts : Prop :=
  ∀ t₁ t₂ : List Byte,
    (∀ e, assemble t₁ = .err e → assemble (t₁ ++ 0x0A :: t₂) = .err e) ∧
    (∀ b₁ e, assemble t₁ = .ok b₁ → assemble t₂ = .err e → assemble (t₁ ++ 0x0A :: t₂) = .err e) ∧
    (∀ b₁ b₂, assemble t₁ = .ok b₁ → assemble t₂ = .ok b₂ → assemble (t₁ ++ 0x0A :: t₂) = .ok (b₁ ++ b₂))

/-- The assembler's output always parses as instructions laid end to end from its first byte (R67, R178). -/
def Obligations.AssembledBytesParse : Prop :=
  ∀ text bytes : List Byte, assemble text = .ok bytes →
    ∃ p : List Instr, parseProgram bytes = some p ∧ encodeProgram p = bytes

/-- Every sequence of instructions is the translation of some text (R165, R167, R169, R172). -/
def Obligations.EveryProgramHasText : Prop :=
  ∀ p : List Instr, ∃ text : List Byte, assemble text = .ok (encodeProgram p)

/-- A text that assembles still assembles to the same bytes with a CR put before every LF (R161, decision D10). -/
def Obligations.CrlfTextAssemblesTheSame : Prop :=
  ∀ text bytes : List Byte, assemble text = .ok bytes →
    assemble (text.flatMap fun c => if c = 0x0A then [0x0D, 0x0A] else [c]) = .ok bytes
end

