-- ==== Sys2Proof/Laws/Alu.lean ====
section
/-! SUPPORT. The ALU and the increment as arithmetic on bit vectors, the form proofs work in. -/

namespace Sys2Proof.Machine

theorem aluAdd_eq (x y : Byte) : aluAdd x y = x + y := by
  apply BitVec.eq_of_toNat_eq; simp [aluAdd]

theorem aluSub_eq (x y : Byte) : aluSub x y = x - y := by
  apply BitVec.eq_of_toNat_eq
  have := x.isLt
  have := y.isLt
  simp only [aluSub, BitVec.toNat_ofNat, BitVec.toNat_sub]
  omega

/-- The address after the operand byte. -/
theorem inc_inc_eq (x : Byte) : inc (inc x) = x + 2 := by
  apply BitVec.eq_of_toNat_eq; simp [inc, Nat.add_assoc]

theorem inc_eq (x : Byte) : inc x = x + 1 := by
  apply BitVec.eq_of_toNat_eq; simp [inc]

end Sys2Proof.Machine
end

