-- ==== Sys2Proof/Laws/Assembler.lean ====
section
/-! SUPPORT. What the assembler's shared operations do: cutting a text, the mnemonic lookup, translating lists of
lines. -/

namespace Sys2Proof.Machine

theorem splitWhere_ne_nil (sep : Byte → Bool) (l : List Byte) : splitWhere sep l ≠ [] := by
  cases l with
  | nil => exact List.cons_ne_nil _ _
  | cons c cs =>
    unfold splitWhere
    split
    · exact List.cons_ne_nil _ _
    · split <;> exact List.cons_ne_nil _ _

theorem splitWhere_cons_sep (sep : Byte → Bool) (c : Byte) (cs : List Byte) (h : sep c = true) :
    splitWhere sep (c :: cs) = [] :: splitWhere sep cs := by
  rw [splitWhere, if_pos h]

theorem splitWhere_cons_other (sep : Byte → Bool) (c : Byte) (cs : List Byte) (h : sep c = false) :
    ∃ piece pieces, splitWhere sep cs = piece :: pieces ∧ splitWhere sep (c :: cs) = (c :: piece) :: pieces := by
  rcases hs : splitWhere sep cs with _ | ⟨piece, pieces⟩
  · exact absurd hs (splitWhere_ne_nil sep cs)
  · exact ⟨piece, pieces, rfl, by rw [splitWhere, hs, h]; rfl⟩

/-- A text cut at a separator is cut there, whatever stands on either side. -/
theorem splitWhere_append_sep (sep : Byte → Bool) (l₁ l₂ : List Byte) (c : Byte) (hc : sep c = true) :
    splitWhere sep (l₁ ++ c :: l₂) = splitWhere sep l₁ ++ splitWhere sep l₂ := by
  induction l₁ with
  | nil => exact splitWhere_cons_sep sep c l₂ hc
  | cons d l₁ ih =>
    rcases hd : sep d with _ | _
    · obtain ⟨p, ps, hp, h⟩ := splitWhere_cons_other sep d l₁ hd
      obtain ⟨q, qs, hq, h'⟩ := splitWhere_cons_other sep d (l₁ ++ c :: l₂) hd
      rw [ih, hp, List.cons_append] at hq
      obtain ⟨rfl, rfl⟩ := List.cons.inj hq
      rw [List.cons_append, h', h, List.cons_append]
    · rw [List.cons_append, splitWhere_cons_sep _ _ _ hd, splitWhere_cons_sep _ _ _ hd, ih, List.cons_append]

/-- A text without separators is one piece. -/
theorem splitWhere_of_none (sep : Byte → Bool) (l : List Byte) (h : ∀ c ∈ l, sep c = false) :
    splitWhere sep l = [l] := by
  induction l with
  | nil => rfl
  | cons c cs ih =>
    obtain ⟨p, ps, hp, hs⟩ := splitWhere_cons_other sep c cs (h c List.mem_cons_self)
    rw [ih fun d hd => h d (List.mem_cons_of_mem c hd)] at hp
    obtain ⟨rfl, rfl⟩ := List.cons.inj hp
    exact hs

theorem isWhitespace_iff (c : Byte) :
    isWhitespace c = true ↔ c ∈ ([0x20, 0x09, 0x0A, 0x0B, 0x0C, 0x0D] : List Byte) := by
  revert c; decide

theorem mnemonicOfText_text (m : Mnemonic) : mnemonicOfText (mnemonicText m) = some m := by
  cases m <;> decide

/-- Translating lines one list after another. -/
theorem assembleLines_append (a b : List (List Byte)) :
    assembleLines (a ++ b) =
      match assembleLines a with
      | .err e => .err e
      | .ok x =>
        match assembleLines b with
        | .err e => .err e
        | .ok y => .ok (x ++ y) := by
  induction a with
  | nil =>
    rw [List.nil_append]
    cases assembleLines b <;> rfl
  | cons l ls ih =>
    rw [List.cons_append, assembleLines, assembleLines, ih]
    rcases assembleLine l with x | e
    · rcases assembleLines ls with y | e
      · rcases assembleLines b with z | e
        · simp only [List.append_assoc]
        · rfl
      · rfl
    · rfl

end Sys2Proof.Machine
end

