-- ==== Sys2Proof/Laws/Decode.lean ====
section
/-! SUPPORT. The look-up table as a function each way (30_encoding.md R63, R64). -/

namespace Sys2Proof

theorem mnemonicOf_opcodeOf (m : Mnemonic) : mnemonicOf (opcodeOf m) = some m := by
  cases m <;> decide

theorem opcodeOf_of_mnemonicOf {v : Byte} {m : Mnemonic} (h : mnemonicOf v = some m) : v = opcodeOf m := by
  revert v; cases m <;> decide

theorem arityOf_eq_zero_iff (m : Mnemonic) : arityOf m = 0 ↔ m = .hlt := by
  cases m <;> decide

theorem opcodeLength_eq_one_iff (v : Byte) :
    opcodeLength v = 1 ↔ mnemonicOf v = none ∨ mnemonicOf v = some .hlt := by
  revert v; decide

theorem decode_nil : decode [] = .noBytes := rfl

theorem decode_of_none {v : Byte} (h : mnemonicOf v = none) (rest : List Byte) :
    decode (v :: rest) = .illegal v := by
  simp only [decode, h]

theorem decode_of_some {v : Byte} {m : Mnemonic} (h : mnemonicOf v = some m) (hm : arityOf m ≠ 0) (op : Byte)
    (rest : List Byte) : decode (v :: op :: rest) = .instr (m.toInstr op) rest := by
  simp only [decode, h, if_neg hm]

end Sys2Proof
end

