-- ==== Sys2Proof/Laws/State.lean ====
section
/-! SUPPORT. One lemma per field per update of State, so that no proof unfolds a record update. -/

namespace Sys2Proof.Machine

@[simp] theorem memorySize_eq : Config.memorySize = 256 := rfl

variable (s : State)

@[simp] theorem State.setA_a (v : Byte) : (s.setA v).a = v := rfl
@[simp] theorem State.setA_pc (v : Byte) : (s.setA v).pc = s.pc := rfl
@[simp] theorem State.setA_ir (v : Byte) : (s.setA v).ir = s.ir := rfl
@[simp] theorem State.setA_run (v : Byte) : (s.setA v).run = s.run := rfl
@[simp] theorem State.setA_mem (v : Byte) : (s.setA v).mem = s.mem := rfl
@[simp] theorem State.setA_rst (v : Byte) : (s.setA v).rst = s.rst := rfl
@[simp] theorem State.setA_obs (v : Byte) : (s.setA v).obs = s.obs := rfl

@[simp] theorem State.setPC_a (v : Byte) : (s.setPC v).a = s.a := rfl
@[simp] theorem State.setPC_pc (v : Byte) : (s.setPC v).pc = v := rfl
@[simp] theorem State.setPC_ir (v : Byte) : (s.setPC v).ir = s.ir := rfl
@[simp] theorem State.setPC_run (v : Byte) : (s.setPC v).run = s.run := rfl
@[simp] theorem State.setPC_mem (v : Byte) : (s.setPC v).mem = s.mem := rfl
@[simp] theorem State.setPC_rst (v : Byte) : (s.setPC v).rst = s.rst := rfl
@[simp] theorem State.setPC_obs (v : Byte) : (s.setPC v).obs = s.obs := rfl

@[simp] theorem State.setIR_a (v : Byte) : (s.setIR v).a = s.a := rfl
@[simp] theorem State.setIR_pc (v : Byte) : (s.setIR v).pc = s.pc := rfl
@[simp] theorem State.setIR_ir (v : Byte) : (s.setIR v).ir = v := rfl
@[simp] theorem State.setIR_run (v : Byte) : (s.setIR v).run = s.run := rfl
@[simp] theorem State.setIR_mem (v : Byte) : (s.setIR v).mem = s.mem := rfl
@[simp] theorem State.setIR_rst (v : Byte) : (s.setIR v).rst = s.rst := rfl
@[simp] theorem State.setIR_obs (v : Byte) : (s.setIR v).obs = s.obs := rfl

@[simp] theorem State.clearRun_a : (s.clearRun).a = s.a := rfl
@[simp] theorem State.clearRun_pc : (s.clearRun).pc = s.pc := rfl
@[simp] theorem State.clearRun_ir : (s.clearRun).ir = s.ir := rfl
@[simp] theorem State.clearRun_run : (s.clearRun).run = false := rfl
@[simp] theorem State.clearRun_mem : (s.clearRun).mem = s.mem := rfl
@[simp] theorem State.clearRun_rst : (s.clearRun).rst = s.rst := rfl
@[simp] theorem State.clearRun_obs : (s.clearRun).obs = s.obs := rfl

@[simp] theorem State.setRun_a : (s.setRun).a = s.a := rfl
@[simp] theorem State.setRun_pc : (s.setRun).pc = s.pc := rfl
@[simp] theorem State.setRun_ir : (s.setRun).ir = s.ir := rfl
@[simp] theorem State.setRun_run : (s.setRun).run = true := rfl
@[simp] theorem State.setRun_mem : (s.setRun).mem = s.mem := rfl
@[simp] theorem State.setRun_rst : (s.setRun).rst = s.rst := rfl
@[simp] theorem State.setRun_obs : (s.setRun).obs = s.obs := rfl

@[simp] theorem State.emit_a (e : Event) : (s.emit e).a = s.a := rfl
@[simp] theorem State.emit_pc (e : Event) : (s.emit e).pc = s.pc := rfl
@[simp] theorem State.emit_ir (e : Event) : (s.emit e).ir = s.ir := rfl
@[simp] theorem State.emit_run (e : Event) : (s.emit e).run = s.run := rfl
@[simp] theorem State.emit_mem (e : Event) : (s.emit e).mem = s.mem := rfl
@[simp] theorem State.emit_rst (e : Event) : (s.emit e).rst = s.rst := rfl
@[simp] theorem State.emit_obs (e : Event) : (s.emit e).obs = s.obs ++ [e] := rfl

@[simp] theorem State.writeByte_a (x v : Byte) : (s.writeByte x v).a = s.a := rfl
@[simp] theorem State.writeByte_pc (x v : Byte) : (s.writeByte x v).pc = s.pc := rfl
@[simp] theorem State.writeByte_ir (x v : Byte) : (s.writeByte x v).ir = s.ir := rfl
@[simp] theorem State.writeByte_run (x v : Byte) : (s.writeByte x v).run = s.run := rfl
@[simp] theorem State.writeByte_mem (x v : Byte) : (s.writeByte x v).mem = s.mem.write x.toNat v := rfl
@[simp] theorem State.writeByte_rst (x v : Byte) : (s.writeByte x v).rst = s.rst := rfl
@[simp] theorem State.writeByte_obs (x v : Byte) : (s.writeByte x v).obs = s.obs := rfl

@[simp] theorem State.passOperand_a : (s.passOperand).a = s.a := rfl
@[simp] theorem State.passOperand_pc : (s.passOperand).pc = inc s.pc := rfl
@[simp] theorem State.passOperand_ir : (s.passOperand).ir = s.ir := rfl
@[simp] theorem State.passOperand_run : (s.passOperand).run = s.run := rfl
@[simp] theorem State.passOperand_mem : (s.passOperand).mem = s.mem := rfl
@[simp] theorem State.passOperand_rst : (s.passOperand).rst = s.rst := rfl
@[simp] theorem State.passOperand_obs : (s.passOperand).obs = s.obs := rfl

@[simp] theorem State.fetchOpcode_a : (s.fetchOpcode).a = s.a := rfl
@[simp] theorem State.fetchOpcode_pc : (s.fetchOpcode).pc = inc s.pc := rfl
@[simp] theorem State.fetchOpcode_ir : (s.fetchOpcode).ir = s.readByte s.pc := rfl
@[simp] theorem State.fetchOpcode_run : (s.fetchOpcode).run = s.run := rfl
@[simp] theorem State.fetchOpcode_mem : (s.fetchOpcode).mem = s.mem := rfl
@[simp] theorem State.fetchOpcode_rst : (s.fetchOpcode).rst = s.rst := rfl
@[simp] theorem State.fetchOpcode_obs : (s.fetchOpcode).obs = s.obs := rfl

@[simp] theorem State.unknownOpcodeStop_a (v : Byte) : (s.unknownOpcodeStop v).a = s.a := rfl
@[simp] theorem State.unknownOpcodeStop_pc (v : Byte) : (s.unknownOpcodeStop v).pc = s.pc := rfl
@[simp] theorem State.unknownOpcodeStop_ir (v : Byte) : (s.unknownOpcodeStop v).ir = s.ir := rfl
@[simp] theorem State.unknownOpcodeStop_run (v : Byte) : (s.unknownOpcodeStop v).run = false := rfl
@[simp] theorem State.unknownOpcodeStop_mem (v : Byte) : (s.unknownOpcodeStop v).mem = s.mem := rfl
@[simp] theorem State.unknownOpcodeStop_rst (v : Byte) : (s.unknownOpcodeStop v).rst = s.rst := rfl
@[simp] theorem State.unknownOpcodeStop_obs (v : Byte) : (s.unknownOpcodeStop v).obs = s.obs ++ [.unknownInstruction v] := rfl

@[simp] theorem State.applyReset_a : (s.applyReset).a = 0 := rfl
@[simp] theorem State.applyReset_pc : (s.applyReset).pc = 0 := rfl
@[simp] theorem State.applyReset_ir : (s.applyReset).ir = 0 := rfl
@[simp] theorem State.applyReset_run : (s.applyReset).run = true := rfl
@[simp] theorem State.applyReset_mem : (s.applyReset).mem = s.mem := rfl
@[simp] theorem State.applyReset_rst : (s.applyReset).rst = true := rfl
@[simp] theorem State.applyReset_obs : (s.applyReset).obs = s.obs := rfl

@[simp] theorem State.loadProgram_a (bs : List Byte) : (s.loadProgram bs).a = s.a := rfl
@[simp] theorem State.loadProgram_pc (bs : List Byte) : (s.loadProgram bs).pc = s.pc := rfl
@[simp] theorem State.loadProgram_ir (bs : List Byte) : (s.loadProgram bs).ir = s.ir := rfl
@[simp] theorem State.loadProgram_run (bs : List Byte) : (s.loadProgram bs).run = s.run := rfl
@[simp] theorem State.loadProgram_mem (bs : List Byte) : (s.loadProgram bs).mem = s.mem.loadFrom 0 (bs.take Config.memorySize) := rfl
@[simp] theorem State.loadProgram_rst (bs : List Byte) : (s.loadProgram bs).rst = s.rst := rfl
@[simp] theorem State.loadProgram_obs (bs : List Byte) : (s.loadProgram bs).obs = s.obs := rfl

end Sys2Proof.Machine
end

