-- ==== Sys2Proof/Laws/Memory.lean ====
section
/-! SUPPORT. What the memory operations do: a read after a write, and that each keeps the canonical form. -/

namespace Sys2Proof.Machine

@[simp] theorem Memory.read_nil (a : Nat) : Memory.read [] a = 0 := rfl

theorem Memory.read_cons (k : Nat) (v : Byte) (m : Memory) (a : Nat) :
    Memory.read ((k, v) :: m) a = if k = a then v else Memory.read m a := rfl

theorem Memory.erase_cons (k : Nat) (v : Byte) (m : Memory) (a : Nat) :
    Memory.erase ((k, v) :: m) a = if k = a then Memory.erase m a else (k, v) :: Memory.erase m a := by
  by_cases h : k = a <;> simp [Memory.erase, h]

theorem Memory.read_erase (m : Memory) (a b : Nat) :
    (m.erase a).read b = if b = a then 0 else m.read b := by
  induction m with
  | nil => simp [Memory.erase]
  | cons c m ih =>
    obtain ⟨k, v⟩ := c
    rw [Memory.erase_cons]
    by_cases hk : k = a
    · subst hk
      rw [if_pos rfl, ih, Memory.read_cons]
      by_cases hb : b = k
      · rw [if_pos hb, if_pos hb]
      · rw [if_neg hb, if_neg hb, if_neg (Ne.symm hb)]
    · rw [if_neg hk, Memory.read_cons, ih, Memory.read_cons]
      by_cases hb : b = a
      · subst hb; simp [hk]
      · simp [hb]

/-- A memory that lists no cell at `a` keeps none at its tail, and its head is elsewhere. -/
theorem Memory.erase_cons_eq {k : Nat} {w : Byte} {m : Memory} {a : Nat}
    (h : Memory.erase ((k, w) :: m) a = (k, w) :: m) : k ≠ a ∧ Memory.erase m a = m := by
  rw [Memory.erase_cons] at h
  split at h
  · have hlen := congrArg List.length h
    have hle : (Memory.erase m a).length ≤ m.length := List.length_filter_le _ _
    rw [List.length_cons] at hlen
    omega
  · next hk => exact ⟨hk, (List.cons.inj h).2⟩

theorem Memory.read_insert (m : Memory) (a : Nat) (v : Byte) (h : Memory.erase m a = m) (b : Nat) :
    (m.insert a v).read b = if b = a then v else m.read b := by
  induction m with
  | nil => simp [Memory.insert, Memory.read_cons, eq_comm]
  | cons c m ih =>
    obtain ⟨k, w⟩ := c
    obtain ⟨hk, hm⟩ := Memory.erase_cons_eq h
    unfold Memory.insert
    split
    · rw [Memory.read_cons, Memory.read_cons, ih hm]
      by_cases hb : b = a
      · subst hb; simp [hk]
      · simp [hb]
    · rw [Memory.read_cons]
      by_cases hb : b = a
      · simp [hb]
      · simp [hb, Ne.symm hb]

theorem Memory.erase_erase (m : Memory) (a : Nat) : (m.erase a).erase a = m.erase a := by
  simp [Memory.erase, List.filter_filter]

/-- A read after a write (20_memory.md R42, R43): the written address gives the value, every other is untouched. -/
theorem Memory.read_write (m : Memory) (a : Nat) (v : Byte) (b : Nat) :
    (m.write a v).read b = if b = a then v else m.read b := by
  unfold Memory.write
  split
  · next h => subst h; exact Memory.read_erase m a b
  · rw [Memory.read_insert _ _ _ (Memory.erase_erase m a), Memory.read_erase]
    by_cases hb : b = a <;> simp [hb]

theorem State.readByte_writeByte (s : State) (x v y : Byte) :
    (s.writeByte x v).readByte y = if y = x then v else s.readByte y := by
  simp only [State.readByte, State.writeByte_mem, Memory.read_write, BitVec.toNat_inj]

/-! ### The canonical form -/

theorem Memory.wfFrom_cons (lo k : Nat) (v : Byte) (m : Memory) :
    Memory.wfFrom lo ((k, v) :: m) = true ↔
      lo ≤ k ∧ k < 256 ∧ v ≠ 0 ∧ Memory.wfFrom (k + 1) m = true := by
  simp [Memory.wfFrom, and_assoc]

theorem Memory.wfFrom_mono {lo lo' : Nat} (h : lo' ≤ lo) {m : Memory} (hm : Memory.wfFrom lo m = true) :
    Memory.wfFrom lo' m = true := by
  cases m with
  | nil => rfl
  | cons c m =>
    obtain ⟨k, v⟩ := c
    rw [Memory.wfFrom_cons] at *
    exact ⟨by omega, hm.2⟩

theorem Memory.erase_wfFrom (lo a : Nat) (m : Memory) (hm : Memory.wfFrom lo m = true) :
    Memory.wfFrom lo (m.erase a) = true := by
  induction m generalizing lo with
  | nil => rfl
  | cons c m ih =>
    obtain ⟨k, v⟩ := c
    rw [Memory.wfFrom_cons] at hm
    rw [Memory.erase_cons]
    split
    · exact Memory.wfFrom_mono (by omega) (ih _ hm.2.2.2)
    · exact (Memory.wfFrom_cons ..).2 ⟨hm.1, hm.2.1, hm.2.2.1, ih _ hm.2.2.2⟩

theorem Memory.insert_wfFrom (lo a : Nat) (v : Byte) (hlo : lo ≤ a) (ha : a < 256) (hv : v ≠ 0) (m : Memory)
    (hm : Memory.wfFrom lo m = true) (he : Memory.erase m a = m) : Memory.wfFrom lo (m.insert a v) = true := by
  induction m generalizing lo with
  | nil => exact (Memory.wfFrom_cons ..).2 ⟨hlo, ha, hv, rfl⟩
  | cons c m ih =>
    obtain ⟨k, w⟩ := c
    rw [Memory.wfFrom_cons] at hm
    have hm' := (Memory.erase_cons_eq he).2
    have hk := (Memory.erase_cons_eq he).1
    unfold Memory.insert
    split
    · exact (Memory.wfFrom_cons ..).2
        ⟨hm.1, hm.2.1, hm.2.2.1, ih _ (by omega) hm.2.2.2 hm'⟩
    · exact (Memory.wfFrom_cons ..).2
        ⟨hlo, ha, hv, (Memory.wfFrom_cons ..).2 ⟨by omega, hm.2.1, hm.2.2.1, hm.2.2.2⟩⟩

theorem Memory.write_wf (m : Memory) (a : Nat) (v : Byte) (ha : a < 256) (hm : m.wf = true) :
    (m.write a v).wf = true := by
  unfold Memory.write Memory.wf
  split
  · exact Memory.erase_wfFrom _ _ _ hm
  · next hv =>
    exact Memory.insert_wfFrom 0 a v (by omega) ha hv _ (Memory.erase_wfFrom _ _ _ hm) (Memory.erase_erase m a)

theorem Memory.loadFrom_wf (k : Nat) (bs : List Byte) (m : Memory) (h : k + bs.length ≤ 256) (hm : m.wf = true) :
    (m.loadFrom k bs).wf = true := by
  induction bs generalizing k m with
  | nil => exact hm
  | cons b bs ih =>
    rw [List.length_cons] at h
    exact ih (k + 1) _ (by omega) (Memory.write_wf m k b (by omega) hm)

theorem State.writeByte_wf (s : State) (x v : Byte) (h : s.mem.wf = true) : (s.writeByte x v).mem.wf = true :=
  Memory.write_wf _ _ _ x.isLt h

theorem State.loadProgram_wf (s : State) (bs : List Byte) (h : s.mem.wf = true) :
    (s.loadProgram bs).mem.wf = true :=
  Memory.loadFrom_wf 0 _ _ (by simp) h

theorem State.setMemory_wf (s : State) (x : Nat) (v : Byte) (h : s.mem.wf = true) :
    (s.setMemory x v).mem.wf = true := by
  unfold State.setMemory
  split
  · next hx => exact Memory.write_wf _ _ _ hx h
  · exact h

theorem State.placeAt_wf (s : State) (x : Byte) (bs : List Byte) (h : s.mem.wf = true) :
    (s.placeAt x bs).mem.wf = true := by
  induction bs generalizing s x with
  | nil => exact h
  | cons b bs ih => exact ih _ _ (State.writeByte_wf s x b h)

/-- Memory after reset is canonical. -/
theorem State.reset_mem_wf : State.reset.mem.wf = true := rfl

end Sys2Proof.Machine
end

