-- ==== Sys2Proof/Laws/PerInstr.lean ====
section
/-! SUPPORT. Facts of the syntax that hold of every instruction, one lemma per constructor. -/

namespace Sys2Proof.Laws.EncodedLength

/-- The encoding of an instruction has the length the format gives it, and its opcode byte alone tells that length
(30_encoding.md R60, R64). -/
def Statement (i : Instr) : Prop :=
  (encode i).length = i.length ∧ opcodeLength (opcodeOf i.mnemonic) = i.length

theorem hlt : Statement .hlt := by constructor <;> decide
theorem lda (op : Byte) : Statement (.lda op) := ⟨rfl, rfl⟩
theorem sta (op : Byte) : Statement (.sta op) := ⟨rfl, rfl⟩
theorem add (op : Byte) : Statement (.add op) := ⟨rfl, rfl⟩
theorem sub (op : Byte) : Statement (.sub op) := ⟨rfl, rfl⟩
theorem jmp (op : Byte) : Statement (.jmp op) := ⟨rfl, rfl⟩

end Sys2Proof.Laws.EncodedLength
end

