-- ==== Sys2Proof/Laws/Step.lean ====
section
/-! SUPPORT. What a step can do, said once: what is decoded at `PC`, that a meaning answers a next state, and the cases
of a step that does. -/

namespace Sys2Proof.Machine

/-- What the bytes at `PC` decode to: only an instruction or an illegal opcode (20_memory.md R44). -/
theorem State.decode_fetchBytes (s : State) :
    decode s.fetchBytes =
      match mnemonicOf (s.readByte s.pc) with
      | none => .illegal (s.readByte s.pc)
      | some m => .instr (m.toInstr (s.readByte (inc s.pc))) [] := by
  unfold State.fetchBytes
  rcases hm : mnemonicOf (s.readByte s.pc) with _ | m
  · have hl : opcodeLength (s.readByte s.pc) = 1 := (opcodeLength_eq_one_iff _).2 (.inl hm)
    rw [if_pos hl, decode_of_none hm]
  · by_cases h : m = .hlt
    · subst h
      have hl : opcodeLength (s.readByte s.pc) = 1 := (opcodeLength_eq_one_iff _).2 (.inr hm)
      rw [if_pos hl]
      simp only [decode, hm, (arityOf_eq_zero_iff _).2, if_true]
      rfl
    · have hl : ¬ opcodeLength (s.readByte s.pc) = 1 := by
        rw [opcodeLength_eq_one_iff, hm]
        simp [h]
      rw [if_neg hl, decode_of_some hm (fun h0 => h ((arityOf_eq_zero_iff m).1 h0))]

theorem State.executeFetched_eq (s : State) :
    s.executeFetched =
      match mnemonicOf (s.readByte s.pc) with
      | none => .next (s.fetchOpcode.unknownOpcodeStop (s.readByte s.pc))
      | some m => exec (m.toInstr (s.readByte (inc s.pc))) s.fetchOpcode := by
  unfold State.executeFetched
  rw [State.decode_fetchBytes]
  rcases mnemonicOf (s.readByte s.pc) with _ | m <;> rfl

theorem step_eq (s : State) :
    step s = if s.rst = false then .refused .stepBeforeReset
      else if s.run = false then .next s else s.executeFetched := rfl

/-- The state a meaning answers, one line per instruction. -/
def execState : Instr → State → State
  | .hlt, s => s.clearRun.emit .halt
  | .lda op, s => s.passOperand.setA (s.readByte op)
  | .sta op, s => s.passOperand.writeByte op s.a
  | .add op, s => s.passOperand.setA (aluAdd s.a (s.readByte op))
  | .sub op, s => s.passOperand.setA (aluSub s.a (s.readByte op))
  | .jmp _, s => s.passOperand.setPC (s.readByte (inc s.pc))

/-- No meaning faults or refuses (60_exceptions.md R212). -/
theorem exec_eq (i : Instr) (s : State) : exec i s = .next (execState i s) := by
  cases i <;> rfl

/-- The cases of a step that answers a next state. -/
theorem step_cases {s t : State} (h : step s = .next t) :
    s.rst = true ∧
      ((s.run = false ∧ t = s) ∨
        (s.run = true ∧ mnemonicOf (s.readByte s.pc) = none ∧
          t = s.fetchOpcode.unknownOpcodeStop (s.readByte s.pc)) ∨
        (s.run = true ∧ ∃ m, mnemonicOf (s.readByte s.pc) = some m ∧
          t = execState (m.toInstr (s.readByte (inc s.pc))) s.fetchOpcode)) := by
  rw [step_eq] at h
  rcases hr : s.rst with _ | _
  · simp [hr] at h
  · rcases hn : s.run with _ | _
    · simp only [hr, hn, Bool.true_eq_false, if_false, if_true, Host.Outcome.next.injEq] at h
      exact ⟨rfl, .inl ⟨rfl, h.symm⟩⟩
    · simp only [hr, hn, Bool.true_eq_false, if_false, State.executeFetched_eq] at h
      refine ⟨rfl, .inr ?_⟩
      rcases hm : mnemonicOf (s.readByte s.pc) with _ | m
      · rw [hm] at h
        exact .inl ⟨rfl, rfl, (Host.Outcome.next.inj h).symm⟩
      · rw [hm] at h
        simp only [exec_eq, Host.Outcome.next.injEq] at h
        exact .inr ⟨rfl, m, rfl, h.symm⟩

end Sys2Proof.Machine
end

