-- ==== Sys2Proof/Tests/Slice0.lean ====
section
/-! SUPPORT. Tests: expected results come from spec/95_test_vectors.md (the vector's id is named) or are written out from
the encodings of 30_encoding.md; then, for every obligation with hypotheses, a witness that meets them all. -/

namespace Sys2Proof.Tests

open Sys2Proof.Machine

/-- A running core with `A`, `PC` and these cells; the rest as after reset. -/
def running (a pc : Byte) (cells : List (Byte × Byte)) : State :=
  { State.reset with a := a, pc := pc, mem := cells.foldl (fun m c => m.write c.1.toNat c.2) [] }

/-- What a test looks at in the state a step answers; `none` where the step answers none. -/
def after {α : Type} (s : State) (look : State → α) : Option α :=
  match step s with
  | .next t => some (look t)
  | .fault _ => none
  | .refused _ => none

/-- The ASCII bytes of a text. -/
def ascii (text : String) : List Byte := text.toList.map fun c => BitVec.ofNat 8 c.toNat

/-! ### Decoding: words written out bit by bit from 30_encoding.md R61 and R63 -/

theorem test_decode_hlt : decodeTableWord 8 0b00000000 = some .hlt := by decide
theorem test_decode_lda : decodeTableWord 16 0b0000101000000001 = some (.lda 10) := by decide
theorem test_decode_sta : decodeTableWord 16 0b1000000000000010 = some (.sta 0x80) := by decide
theorem test_decode_add : decodeTableWord 16 0b0101000000000011 = some (.add 0x50) := by decide
theorem test_decode_sub : decodeTableWord 16 0b1111111100000100 = some (.sub 255) := by decide
theorem test_decode_jmp : decodeTableWord 16 0b0100000000000101 = some (.jmp 0x40) := by decide
theorem test_decode_illegal : decode [0x06, 0x50] = .illegal 0x06 ∧ decode [0xFF] = .illegal 0xFF := by decide
theorem test_decode_short : decode [] = .noBytes ∧ decode [0x05] = .missingOperand 0x05 := by decide

/-! ### Well-formedness: 30_encoding.md R68, at most 256 bytes -/

theorem test_program_of_256_bytes_accepted : wellFormedProgram (List.replicate 128 (.lda 0)) = true := by
  decide +kernel
theorem test_program_of_257_bytes_refused : wellFormedProgram (.hlt :: List.replicate 128 (.lda 0)) = false := by
  decide +kernel

/-! ### One step each -/

/-- V-LDA-2. -/
theorem test_lda_pc_wraps :
    after (running 0 0xFE [(0xFE, 0x01), (0x00, 0x77)]) (fun t => (t.a, t.pc, t.ir)) = some (0x77, 0x00, 0x01) := by
  decide
/-- V-LDA-3. -/
theorem test_lda_operand_from_address_0 :
    after (running 0 0xFF [(0xFF, 0x01), (0x00, 0x05), (0x05, 0x99)]) (fun t => (t.a, t.pc)) = some (0x99, 0x01) := by
  decide
/-- V-STA-2: the stored 0 turns the next opcode into HLT. -/
theorem test_sta_rewrites_next_opcode :
    after (running 0 0x02 [(0x02, 0x02), (0x03, 0x04), (0x04, 0x03)]) (fun t => (t.readByte 4, t.pc, t.mem.wf)) =
      some (0x00, 0x04, true) := by
  decide
/-- V-STA-3. -/
theorem test_sta_overwrites_own_operand :
    after (running 0x7E 0x10 [(0x10, 0x02), (0x11, 0x11)]) (fun t => (t.readByte 0x11, t.pc, t.a)) =
      some (0x7E, 0x12, 0x7E) := by
  decide
/-- V-ADD-1. -/
theorem test_add_250_10 :
    after (running 250 0x40 [(0x40, 0x03), (0x41, 0x50), (0x50, 10)]) (fun t => (t.a, t.pc, t.ir)) =
      some (4, 0x42, 0x03) := by
  decide
/-- V-ADD-7. -/
theorem test_add_own_opcode :
    after (running 0x10 0x30 [(0x30, 0x03), (0x31, 0x30)]) (fun t => (t.a, t.pc)) = some (0x13, 0x32) := by
  decide
/-- V-SUB-1. -/
theorem test_sub_2_5 :
    after (running 2 0x40 [(0x40, 0x04), (0x41, 0x50), (0x50, 5)]) (fun t => (t.a, t.pc, t.ir)) =
      some (253, 0x42, 0x04) := by
  decide
/-- V-SUB-7. -/
theorem test_sub_own_operand :
    after (running 0x10 0x40 [(0x40, 0x04), (0x41, 0x41)]) (fun t => (t.a, t.pc)) = some (0xCF, 0x42) := by
  decide
/-- V-JMP-1. -/
theorem test_jmp_takes_byte_after_operand :
    after (running 0x33 0x00 [(0x00, 0x05), (0x01, 0x40), (0x02, 0x10)]) (fun t => (t.pc, t.ir, t.a)) =
      some (0x10, 0x05, 0x33) := by
  decide
/-- V-JMP-4. -/
theorem test_jmp_at_255 :
    after (running 0 0xFF [(0xFF, 0x05), (0x00, 0x12), (0x01, 0x44)]) State.pc = some 0x44 := by
  decide
/-- V-HLT-1 (the source's example L1-2). -/
theorem test_hlt_after_reset :
    after State.reset (fun t => (t.a, t.pc, t.ir, t.run, t.obs)) = some (0, 1, 0, false, [.halt]) := by
  decide
/-- V-HLT-2. -/
theorem test_hlt_at_255 :
    after (running 0x11 0xFF []) (fun t => (t.a, t.pc, t.run)) = some (0x11, 0x00, false) := by
  decide
/-- V-UNK-3. -/
theorem test_unknown_ff_at_255 :
    after (running 0x22 0xFF [(0xFF, 0xFF)]) (fun t => (t.a, t.pc, t.ir, t.run, t.obs)) =
      some (0x22, 0x00, 0xFF, false, [.unknownInstruction 255]) := by
  decide
/-- V-FD-1. -/
theorem test_halted_step_does_nothing :
    after { running 0x11 0x05 [(0x05, 0x01)] with run := false } id =
      some { running 0x11 0x05 [(0x05, 0x01)] with run := false } := by
  decide
/-- V-FD-2. -/
theorem test_step_before_reset_refused (n : Nat) : step (State.constructed n) = .refused .stepBeforeReset := rfl

/-! ### Reset, host commands, the run loop -/

/-- V-RST-1. -/
theorem test_reset_keeps_memory :
    ({ running 0x08 0x07 [(13, 8)] with run := false }).applyReset = running 0 0 [(13, 8)] := by decide
/-- V-HOST-1. -/
theorem test_load_program_keeps_the_rest :
    ((running 0 0 [(3, 0x55)]).loadProgram [1, 2, 3]).mem = [(0, 1), (1, 2), (2, 3), (3, 0x55)] := by decide
/-- V-HOST-2, with 257 bytes: the last is dropped. -/
theorem test_load_program_truncates :
    (State.reset.loadProgram (List.replicate 256 0 ++ [7])).mem = [] := by decide +kernel
/-- V-HOST-4 and V-HOST-5. -/
theorem test_host_addresses_past_255 :
    (State.reset.setMemory 256 7) = State.reset ∧ (State.reset.setMemory 255 0xAB).getMemory 255 = 0xAB ∧
      (State.reset.setMemory 255 0xAB).getMemory 256 = 0 ∧ (State.reset.setMemory 255 0xAB).getMemory 1000 = 0 := by
  decide
/-- A run over a fresh memory ends at its first step (43_control.md R141: zero memory executes HLT). -/
theorem test_run_over_zero_memory :
    runFor 1 State.reset = .ended { State.reset with pc := 1, run := false, obs := [.halt] } := by decide
/-- L1-9: the dump's first sixteen bytes for the source's example, before it runs. -/
theorem test_surface_dump :
    (((State.reset.loadProgram [1, 10, 3, 11, 2, 13, 0]).setMemory 10 5).setMemory 11 3).dump.firstBytes =
      [1, 10, 3, 11, 2, 13, 0, 0, 0, 0, 5, 3, 0, 0, 0, 0] := by decide
/-- 20_memory.md R51: JMP's three reads; V-UNK-4: no second read over an unknown opcode. -/
theorem test_accesses :
    stepAccesses (running 0 0xFE [(0xFE, 0x05)]) = [.read 0xFE, .read 0xFF, .read 0x00] ∧
      stepAccesses (running 0 0x80 [(0x80, 0x80), (0x81, 0x50)]) = [.read 0x80] := by decide
/-- The host's own probe: a table word placed where it is fetched runs first after reset. -/
theorem test_fetch_word_runs :
    after (State.reset.withFetchWord 16 0x0001) (fun t => (t.a, t.pc, t.ir)) = some (0x01, 2, 0x01) := by decide

/-! ### The assembler -/

/-- V-ASM-1 (the source's example L1-5). -/
theorem test_asm_source_example :
    assemble (ascii "LDA 10\nADD 11\nSTA 12\nHLT") = .ok [0x01, 10, 0x03, 11, 0x02, 12, 0x00] := by decide
/-- V-ASM-4. -/
theorem test_asm_comment_blank_and_trailing : assemble (ascii "  ; comment\n\nHLT extra") = .ok [0x00] := by decide
/-- V-ASM-5 and V-ASM-12: the upper bound. -/
theorem test_asm_operand_bound :
    assemble (ascii "LDA 256") = .err (.invalidOperand (ascii "LDA 256")) ∧
      assemble (ascii "LDA 255") = .ok [0x01, 0xFF] := by decide
/-- V-ASM-7. -/
theorem test_asm_missing_operand : assemble (ascii "LDA") = .err (.invalidOperand (ascii "LDA")) := by decide
/-- V-ASM-8. -/
theorem test_asm_tokens_after_operand : assemble (ascii "JMP 255 ; loop") = .ok [0x05, 0xFF] := by decide
/-- V-ASM-10. -/
theorem test_asm_sign_refused : assemble (ascii "LDA +5") = .err (.invalidOperand (ascii "LDA +5")) := by decide
/-- V-ASM-14. -/
theorem test_asm_failure_carries_no_bytes :
    assemble (ascii "HLT\nXYZ 1\nHLT") = .err (.unknownOpcode (ascii "XYZ")) := by decide
/-- V-ASM-15. -/
theorem test_asm_tabs_and_cr : assemble (ascii "\tSTA\t0\r\n") = .ok [0x02, 0x00] := by decide
/-- V-ASM-19 and V-ASM-3. -/
theorem test_asm_mnemonic_exact :
    assemble (ascii "HLT;") = .err (.unknownOpcode (ascii "HLT;")) ∧
      assemble (ascii "lda 10") = .err (.unknownOpcode (ascii "lda")) := by decide
/-- V-ASM-21. -/
theorem test_asm_error_keeps_whole_line :
    assemble (ascii "HLT\n  LDA x12  \n") = .err (.invalidOperand (ascii "  LDA x12  ")) := by decide

/-! ### Witnesses: a state and operands that meet each obligation's hypotheses -/

theorem witness_StepLdaLoadsAccumulator : ∃ s : State, s.rst = true ∧ s.run = true ∧ s.readByte s.pc = 0x01 :=
  ⟨running 0 0xFF [(0xFF, 0x01)], by decide⟩
theorem witness_StepStaStoresAccumulator : ∃ s : State, s.rst = true ∧ s.run = true ∧ s.readByte s.pc = 0x02 :=
  ⟨running 1 0xFF [(0xFF, 0x02)], by decide⟩
/-- The clause of the store that hits the next opcode. -/
theorem witness_StepStaStoresAccumulator_next :
    ∃ s : State, s.rst = true ∧ s.run = true ∧ s.readByte s.pc = 0x02 ∧ s.readByte (s.pc + 1) = s.pc + 2 :=
  ⟨running 1 0xFE [(0xFE, 0x02)], by decide⟩
theorem witness_StepAddWrapsModulo256 : ∃ s : State, s.rst = true ∧ s.run = true ∧ s.readByte s.pc = 0x03 :=
  ⟨running 0xFF 0 [(0, 0x03)], by decide⟩
theorem witness_StepSubWrapsModulo256 : ∃ s : State, s.rst = true ∧ s.run = true ∧ s.readByte s.pc = 0x04 :=
  ⟨running 0 0 [(0, 0x04)], by decide⟩
theorem witness_StepJmpTakesByteAfterOperand : ∃ s : State, s.rst = true ∧ s.run = true ∧ s.readByte s.pc = 0x05 :=
  ⟨running 0 0xFE [(0xFE, 0x05)], by decide⟩
theorem witness_StepHltStopsAndNotifies : ∃ s : State, s.rst = true ∧ s.run = true ∧ s.readByte s.pc = 0x00 :=
  ⟨State.reset, by decide⟩
/-- The lowest and the highest unknown opcode. -/
theorem witness_StepUnknownOpcodeStops :
    (∃ s : State, s.rst = true ∧ s.run = true ∧ 0x06 ≤ (s.readByte s.pc).toNat ∧ s.readByte s.pc = 0x06) ∧
      ∃ s : State, s.rst = true ∧ s.run = true ∧ 0x06 ≤ (s.readByte s.pc).toNat ∧ s.readByte s.pc = 0xFF :=
  ⟨⟨running 0 0 [(0, 0x06)], by decide⟩, ⟨running 0 0xFF [(0xFF, 0xFF)], by decide⟩⟩
theorem witness_HaltedCoreStaysHalted : ∃ s : State, s.rst = true ∧ s.run = false :=
  ⟨(running 0 0 []).clearRun, by decide⟩
theorem witness_StepRunsDecodedInstruction :
    ∃ (s : State) (i : Instr) (rest : List Byte), s.rst = true ∧ s.run = true ∧
      decode [s.readByte s.pc, s.readByte (s.pc + 1)] = .instr i rest :=
  ⟨running 0 0xFF [(0xFF, 0x02), (0, 0x09)], .sta 0x09, [], by decide⟩
theorem witness_InstructionRegisterHoldsFetchedOpcode : ∃ s : State, s.rst = true ∧ s.run = true :=
  ⟨running 0 0 [(0, 0x06)], by decide⟩
/-- One state for each line of the table: the boundary opcodes 0, 1, 4, 5, 6 and 255. -/
theorem witness_ProgramCounterAfterStep :
    ∀ v ∈ ([0x00, 0x01, 0x04, 0x05, 0x06, 0xFF] : List Byte),
      ∃ s : State, s.rst = true ∧ s.run = true ∧ s.readByte s.pc = v := by
  intro v hv
  refine ⟨running 0 0 [(0, v)], rfl, rfl, ?_⟩
  revert v; decide
theorem witness_StepReturnsNormally : ∃ s : State, s.rst = true := ⟨State.reset, rfl⟩
theorem witness_RunFlagClearedOnlyByHltOrUnknown : ∃ s t : State, step s = .next t ∧ s.run = true ∧ t.run = false :=
  ⟨State.reset, _, rfl, rfl, rfl⟩
theorem witness_AccumulatorWrittenOnlyByLdaAddSub :
    ∃ s t : State, step s = .next t ∧ s.readByte s.pc ≠ 0x01 ∧ s.readByte s.pc ≠ 0x03 ∧ s.readByte s.pc ≠ 0x04 :=
  ⟨State.reset, _, rfl, by decide⟩
theorem witness_MemoryWrittenOnlyBySta :
    ∃ (s t : State) (x : Nat), step s = .next t ∧ t.mem.read x ≠ s.mem.read x :=
  ⟨running 7 0 [(0, 0x02), (1, 0xFF)], _, 255, rfl, by decide⟩
/-- One state for each case of the appended event: halted, HLT, the boundaries of the known and the unknown opcodes. -/
theorem witness_StepAppendsAtMostOneEvent :
    (∃ s t : State, step s = .next t ∧ s.run = false) ∧
      (∃ s t : State, step s = .next t ∧ s.run = true ∧ s.readByte s.pc = 0x00) ∧
      (∃ s t : State, step s = .next t ∧ s.run = true ∧ s.readByte s.pc = 0x01) ∧
      (∃ s t : State, step s = .next t ∧ s.run = true ∧ s.readByte s.pc = 0x05) ∧
      ∃ s t : State, step s = .next t ∧ s.run = true ∧ s.readByte s.pc = 0x06 :=
  ⟨⟨State.reset.clearRun, _, rfl, rfl⟩, ⟨State.reset, _, rfl, rfl, rfl⟩,
    ⟨running 0 0 [(0, 0x01)], _, rfl, rfl, rfl⟩, ⟨running 0 0 [(0, 0x05)], _, rfl, rfl, rfl⟩,
    ⟨running 0 0 [(0, 0x06)], _, rfl, rfl, rfl⟩⟩
theorem witness_NextFetchSeesStore :
    ∃ s : State, s.rst = true ∧ s.run = true ∧ s.readByte s.pc = 0x02 ∧ s.readByte (s.pc + 1) = s.pc + 2 :=
  ⟨running 0 2 [(2, 0x02), (3, 0x04), (4, 0x03)], by decide⟩
theorem witness_SelfJumpNeverStops :
    ∃ s : State, s.rst = true ∧ s.run = true ∧ s.readByte s.pc = 0x05 ∧ s.readByte (s.pc + 2) = s.pc :=
  ⟨running 0 8 [(8, 0x05), (10, 8)], by decide⟩
/-- Two states that differ in memory, at an address the step does not read. -/
theorem witness_StepDependsOnlyOnListedReads :
    ∃ s u : State, SameRegisters s u ∧ s.mem ≠ u.mem ∧
      ∀ x : Byte, Access.read x ∈ stepAccesses s → u.readByte x = s.readByte x := by
  refine ⟨State.reset, running 0 0 [(9, 1)], ⟨rfl, rfl, rfl, rfl, rfl, rfl⟩, by decide, fun x hx => ?_⟩
  have h : stepAccesses State.reset = [.read 0] := by decide
  rw [h, List.mem_singleton, Access.read.injEq] at hx
  subst hx; decide
theorem witness_StepWritesOnlyListedAddresses :
    ∃ (s t : State) (x : Byte), step s = .next t ∧ Access.write x ∉ stepAccesses s :=
  ⟨running 7 0 [(0, 0x02), (1, 0xFF)], _, 0xFE, rfl, by decide⟩
theorem witness_DecodeEncodeAgree : ∃ i : Instr, i.wellFormed = true := ⟨.sub 0xFF, rfl⟩
theorem witness_StepKeepsInvariant : ∃ s t : State, s.Inv ∧ step s = .next t :=
  ⟨State.reset, _, ⟨rfl, rfl, fun _ h => nomatch h⟩, rfl⟩
/-- A command of each kind that takes a state further: a `run` that ends and a write. -/
theorem witness_CommandsKeepInvariant :
    (∃ (s t : State) (r : Response), s.Inv ∧ perform 1 .run s = .next (t, r)) ∧
      ∃ (s t : State) (r : Response), s.Inv ∧ perform 0 (.setMemory 255 1) s = .next (t, r) :=
  ⟨⟨State.reset, _, _, ⟨rfl, rfl, fun _ h => nomatch h⟩, rfl⟩, ⟨State.reset, _, _, ⟨rfl, rfl, fun _ h => nomatch h⟩, rfl⟩⟩
/-- A running core that an unknown opcode halts, and a halted core that shows its stop. -/
theorem witness_StepKeepsStopShown :
    (∃ s t : State, s.run = true ∧ (s.run = false → s.StopShown) ∧ step s = .next t ∧ t.run = false) ∧
      ∃ s t : State, s.run = false ∧ s.StopShown ∧ step s = .next t ∧ t.run = false :=
  ⟨⟨running 0 0 [(0, 0x06)], _, rfl, fun h => absurd h (by decide), rfl, rfl⟩,
    ⟨{ State.reset with pc := 1, run := false, obs := [.halt] }, _, rfl, ⟨rfl, .inl ⟨rfl, rfl⟩⟩, rfl, rfl⟩⟩
theorem witness_ReachableStatesMeetInvariant : ∃ s : State, Reachable s ∧ s.run = false ∧ s.rst = true :=
  ⟨_, .command 0 .step _ _ _ (.command 0 .reset _ _ _ (.construct 0) rfl) rfl, rfl, rfl⟩
theorem witness_CanonicalMemoryIsUnique :
    ∃ m n : Memory, m.wf = true ∧ n.wf = true ∧ ∀ x : Nat, m.read x = n.read x :=
  ⟨[(255, 1)], [(255, 1)], by decide, by decide, fun _ => rfl⟩
theorem witness_SetMemoryWritesOneByte : ∃ address : Nat, 256 ≤ address := ⟨256, Nat.le_refl 256⟩
theorem witness_ReadCommandsChangeNothing : (∃ x : Nat, 256 ≤ x) ∧ ∃ s : State, s.rst = true :=
  ⟨⟨256, Nat.le_refl 256⟩, ⟨running 1 2 [], rfl⟩⟩
theorem witness_CommandsOnlyExtendTrace :
    (∃ (s t : State) (r : Response), perform 1 .run s = .next (t, r)) ∧
      ∃ (s t : State) (c : Command) (r : Response), perform 1 c s = .next (t, r) ∧ c ≠ .step ∧ c ≠ .run :=
  ⟨⟨State.reset, _, _, rfl⟩, ⟨State.reset, _, .reset, _, rfl, by decide⟩⟩
/-- Either side of each equivalence is met: a run that ends and one that is abandoned. -/
theorem witness_RunIsResetThenSteps :
    (∃ s t : State, runFor 1 s = .ended t) ∧ ∃ s t : State, runFor 0 s = .abandoned t :=
  ⟨⟨State.reset, _, rfl⟩, ⟨State.reset, _, rfl⟩⟩
theorem witness_RunForgetsRegisters : ∃ s u : State, u.mem = s.mem ∧ u.obs = s.obs ∧ u.a ≠ s.a ∧ u.rst ≠ s.rst :=
  ⟨State.reset, { running 1 7 [] with rst := false }, by decide⟩
theorem witness_RunHasOneFinalState :
    ∃ s t u : State, runFor 1 s = .ended t ∧ s.RunEnds t ∧ s.RunEnds u :=
  ⟨State.reset, _, _, rfl, ⟨1, rfl⟩, ⟨2, rfl⟩⟩
/-- One run that ends by HLT and one that ends by an unknown opcode. -/
theorem witness_FinalStateExplainsStop :
    (∃ s t : State, s.RunEnds t ∧ t.ir = 0x00) ∧ ∃ s t : State, s.RunEnds t ∧ t.ir = 0x06 :=
  ⟨⟨State.reset, _, ⟨1, rfl⟩, rfl⟩, ⟨running 0 0 [(0, 0x06)], _, ⟨1, rfl⟩, rfl⟩⟩
theorem witness_TokensAreMaximalRuns :
    (∃ run : List Byte, run ≠ [] ∧ ∀ c ∈ run, c ∉ ([0x20, 0x09, 0x0A, 0x0B, 0x0C, 0x0D] : List Byte)) ∧
      ∃ c : Byte, c ∈ ([0x20, 0x09, 0x0A, 0x0B, 0x0C, 0x0D] : List Byte) :=
  ⟨⟨ascii ";HLT", by decide⟩, ⟨0x0D, by decide⟩⟩
/-- A blank line and a comment line. -/
theorem witness_BlankAndCommentLinesSkipped :
    (∃ line : List Byte, (0x0A : Byte) ∉ line ∧ tokensOf line = []) ∧
      ∃ line rest tokens, (0x0A : Byte) ∉ line ∧ tokensOf line = (0x3B :: rest) :: tokens :=
  ⟨⟨ascii " \t", by decide⟩, ⟨ascii " ; x", [], [ascii "x"], by decide⟩⟩
theorem witness_UnknownMnemonicFails :
    ∃ line token tokens, (0x0A : Byte) ∉ line ∧ tokensOf line = token :: tokens ∧ token.head? ≠ some 0x3B ∧
      token ∉ ([[0x48, 0x4C, 0x54], [0x4C, 0x44, 0x41], [0x53, 0x54, 0x41], [0x41, 0x44, 0x44], [0x53, 0x55, 0x42],
        [0x4A, 0x4D, 0x50]] : List (List Byte)) :=
  ⟨ascii "XYZ 1", ascii "XYZ", [ascii "1"], by decide⟩
theorem witness_HltLineIgnoresTrailingTokens :
    ∃ line tokens, (0x0A : Byte) ∉ line ∧ tokensOf line = [0x48, 0x4C, 0x54] :: tokens :=
  ⟨ascii "HLT garbage", [ascii "garbage"], by decide⟩
/-- One line for each clause, with the first, a middle and the last row: no operand, an operand that is refused, one that is
accepted. -/
theorem witness_OperandLineAssembles :
    (∃ line : List Byte, (0x0A : Byte) ∉ line ∧ tokensOf line = [[0x4C, 0x44, 0x41]]) ∧
      (∃ (line token : List Byte), (0x0A : Byte) ∉ line ∧ tokensOf line = [[0x41, 0x44, 0x44], token] ∧
        parseOperand token = none) ∧
      ∃ (line token : List Byte) (more : List (List Byte)) (v : Byte), (0x0A : Byte) ∉ line ∧
        tokensOf line = [0x4A, 0x4D, 0x50] :: token :: more ∧ parseOperand token = some v :=
  ⟨⟨ascii "LDA", by decide⟩, ⟨ascii "ADD 256", ascii "256", by decide⟩,
    ⟨ascii "JMP 255 x", ascii "255", [ascii "x"], 255, by decide⟩⟩
/-- The three cases: the first text fails, only the second fails, both assemble. -/
theorem witness_AssembleJoinsTexts :
    (∃ t e, assemble t = .err e) ∧ (∃ t₁ t₂ b₁ e, assemble t₁ = .ok b₁ ∧ assemble t₂ = .err e) ∧
      ∃ t₁ t₂ b₁ b₂, assemble t₁ = .ok b₁ ∧ assemble t₂ = .ok b₂ :=
  ⟨⟨ascii "XYZ", _, rfl⟩, ⟨[], ascii "LDA", _, _, rfl, rfl⟩, ⟨ascii "HLT", ascii "HLT", _, _, rfl, rfl⟩⟩
theorem witness_AssembledBytesParse : ∃ text bytes, assemble text = .ok bytes ∧ bytes ≠ [] :=
  ⟨ascii "JMP 0\nHLT", [0x05, 0x00, 0x00], by decide⟩
theorem witness_CrlfTextAssemblesTheSame : ∃ text bytes, assemble text = .ok bytes ∧ (0x0A : Byte) ∈ text :=
  ⟨ascii "JMP 0\nHLT", [0x05, 0x00, 0x00], by decide⟩

end Sys2Proof.Tests
end

section
/-! The look-up table by number: the bounds on an opcode byte that the statements about a step speak of
(30_encoding.md R63 to R65). -/

namespace Sys2Proof

/-- The illegal opcode bytes are 0x06..0xFF (R65). -/
theorem mnemonicOf_eq_none_iff (v : Byte) : mnemonicOf v = none ↔ 6 ≤ v.toNat := by
  revert v; decide

theorem opcodeOf_toNat_le_five (m : Mnemonic) : (opcodeOf m).toNat ≤ 5 := by
  cases m <;> decide

theorem opcodeOf_toNat_eq_zero_iff (m : Mnemonic) : (opcodeOf m).toNat = 0 ↔ m = .hlt := by
  cases m <;> decide

theorem opcodeOf_toNat_eq_five_iff (m : Mnemonic) : (opcodeOf m).toNat = 5 ↔ m = .jmp := by
  cases m <;> decide

@[simp] theorem Mnemonic.mnemonic_toInstr (m : Mnemonic) (op : Byte) : (m.toInstr op).mnemonic = m := by
  cases m <;> rfl

end Sys2Proof
end

section
/-! What the meanings change, field by field, and a step's next state as an equation per case. -/

namespace Sys2Proof.Machine

@[simp] theorem State.setMemory_obs (s : State) (x : Nat) (v : Byte) : (s.setMemory x v).obs = s.obs := by
  unfold State.setMemory
  split <;> rfl

@[simp] theorem State.readByte_fetchOpcode (s : State) (x : Byte) : s.fetchOpcode.readByte x = s.readByte x := rfl

/-! ### The fields after a meaning -/

@[simp] theorem execState_ir (i : Instr) (s : State) : (execState i s).ir = s.ir := by
  cases i <;> rfl

@[simp] theorem execState_rst (i : Instr) (s : State) : (execState i s).rst = s.rst := by
  cases i <;> rfl

theorem execState_run (i : Instr) (s : State) :
    (execState i s).run = if i.mnemonic = .hlt then false else s.run := by
  cases i <;> rfl

theorem execState_obs (i : Instr) (s : State) :
    (execState i s).obs = s.obs ++ if i.mnemonic = .hlt then [.halt] else [] := by
  cases i with
  | hlt => rfl
  | _ => exact (List.append_nil _).symm

theorem execState_pc (i : Instr) (s : State) :
    (execState i s).pc =
      if i.mnemonic = .hlt then s.pc else if i.mnemonic = .jmp then s.readByte (inc s.pc) else inc s.pc := by
  cases i <;> rfl

theorem execState_a_of_not_lda_add_sub {i : Instr} (hl : i.mnemonic ≠ .lda) (ha : i.mnemonic ≠ .add)
    (hs : i.mnemonic ≠ .sub) (s : State) : (execState i s).a = s.a := by
  cases i with
  | lda => exact absurd rfl hl
  | add => exact absurd rfl ha
  | sub => exact absurd rfl hs
  | hlt | sta | jmp => rfl

theorem execState_mem_of_not_sta {i : Instr} (h : i.mnemonic ≠ .sta) (s : State) :
    (execState i s).mem = s.mem := by
  cases i with
  | sta => exact absurd rfl h
  | hlt | lda | add | sub | jmp => rfl

@[simp] theorem execState_sta_mem (op : Byte) (s : State) :
    (execState (.sta op) s).mem = s.mem.write op.toNat s.a := rfl

theorem execState_mem_wf (i : Instr) (s : State) (h : s.mem.wf = true) : (execState i s).mem.wf = true := by
  by_cases hi : i.mnemonic = .sta
  · cases i with
    | sta op => exact State.writeByte_wf s op s.a h
    | hlt | lda | add | sub | jmp => cases hi
  · rwa [execState_mem_of_not_sta hi]

/-! ### A step of a running core, forwards -/

theorem step_of_unknownOpcode {s : State} (hr : s.rst = true) (hn : s.run = true)
    (hv : mnemonicOf (s.readByte s.pc) = none) :
    step s = .next (s.fetchOpcode.unknownOpcodeStop (s.readByte s.pc)) := by
  rw [step_eq, if_neg (by simp [hr]), if_neg (by simp [hn]), State.executeFetched_eq, hv]

theorem step_of_mnemonicOf {s : State} {m : Mnemonic} (hr : s.rst = true) (hn : s.run = true)
    (hm : mnemonicOf (s.readByte s.pc) = some m) :
    step s = .next (execState (m.toInstr (s.readByte (inc s.pc))) s.fetchOpcode) := by
  rw [step_eq, if_neg (by simp [hr]), if_neg (by simp [hn]), State.executeFetched_eq, hm]
  exact exec_eq _ _

end Sys2Proof.Machine
end

section
/-! The statements about one step of the core (10_state.md): the registers, memory and `OBS` after it. -/

namespace Sys2Proof.Machine

/-- Settles O17: neither the unknown-opcode stop nor a meaning writes `IR` after the opcode fetch. -/
theorem instructionRegisterHoldsFetchedOpcode : Obligations.InstructionRegisterHoldsFetchedOpcode := by
  intro s hr hn
  rcases hm : mnemonicOf (s.readByte s.pc) with _ | m
  · exact ⟨_, step_of_unknownOpcode hr hn hm, rfl⟩
  · exact ⟨_, step_of_mnemonicOf hr hn hm, execState_ir _ _⟩

/-- Settles O18, by whether the opcode is illegal or a mnemonic's. -/
theorem programCounterAfterStep : Obligations.ProgramCounterAfterStep := by
  intro s hr hn
  rcases hm : mnemonicOf (s.readByte s.pc) with _ | m
  · refine ⟨_, step_of_unknownOpcode hr hn hm, ?_⟩
    simp [(mnemonicOf_eq_none_iff _).1 hm, inc_eq]
  · refine ⟨_, step_of_mnemonicOf hr hn hm, ?_⟩
    have hle : ¬ 6 ≤ (opcodeOf m).toNat := by have := opcodeOf_toNat_le_five m; omega
    rw [opcodeOf_of_mnemonicOf hm, execState_pc]
    simp only [hle, or_false, opcodeOf_toNat_eq_zero_iff, opcodeOf_toNat_eq_five_iff, Mnemonic.mnemonic_toInstr,
      State.fetchOpcode_pc, State.readByte_fetchOpcode, inc_inc_eq]
    rw [inc_eq]

/-- Settles O21: of the instructions only HLT clears `RUN`, and its opcode is the only one below 1. -/
theorem runFlagClearedOnlyByHltOrUnknown : Obligations.RunFlagClearedOnlyByHltOrUnknown := by
  intro s t h
  obtain ⟨-, ⟨hn, rfl⟩ | ⟨-, hv, rfl⟩ | ⟨hn, m, hm, rfl⟩⟩ := step_cases h
  · simp [hn]
  · have := (mnemonicOf_eq_none_iff _).1 hv
    simp only [State.unknownOpcodeStop_run, Bool.false_eq_true, false_iff]
    omega
  · have hpos : 1 ≤ (opcodeOf m).toNat ↔ m ≠ .hlt := by
      rw [Ne, ← opcodeOf_toNat_eq_zero_iff, Nat.one_le_iff_ne_zero]
    simp [opcodeOf_of_mnemonicOf hm, execState_run, hn, hpos, opcodeOf_toNat_le_five]

/-- Settles O22: the opcode bytes ruled out are those of the three instructions that write `A`. -/
theorem accumulatorWrittenOnlyByLdaAddSub : Obligations.AccumulatorWrittenOnlyByLdaAddSub := by
  intro s t h hlda hadd hsub
  obtain ⟨-, ⟨-, rfl⟩ | ⟨-, -, rfl⟩ | ⟨-, m, hm, rfl⟩⟩ := step_cases h
  · rfl
  · rfl
  · rw [opcodeOf_of_mnemonicOf hm] at hlda hadd hsub
    refine execState_a_of_not_lda_add_sub ?_ ?_ ?_ _ <;> rw [Mnemonic.mnemonic_toInstr]
    · rintro rfl; exact hlda rfl
    · rintro rfl; exact hadd rfl
    · rintro rfl; exact hsub rfl

/-- Settles O23: only STA's meaning changes memory, and a write changes the read at its own address alone. -/
theorem memoryWrittenOnlyBySta : Obligations.MemoryWrittenOnlyBySta := by
  intro s t x h hx
  obtain ⟨-, ⟨-, rfl⟩ | ⟨-, -, rfl⟩ | ⟨hn, m, hm, rfl⟩⟩ := step_cases h
  · exact absurd rfl hx
  · exact absurd rfl hx
  · by_cases hsta : m = .sta
    · subst hsta
      refine ⟨hn, opcodeOf_of_mnemonicOf hm, ?_⟩
      by_contra hne
      rw [← inc_eq] at hne
      exact hx ((Memory.read_write _ _ _ x).trans (if_neg hne))
    · rw [execState_mem_of_not_sta (by rwa [Mnemonic.mnemonic_toInstr])] at hx
      exact absurd rfl hx

/-- Settles O24, by the cases of a step. -/
theorem stepAppendsAtMostOneEvent : Obligations.StepAppendsAtMostOneEvent := by
  intro s t h
  obtain ⟨-, ⟨hn, rfl⟩ | ⟨hn, hv, rfl⟩ | ⟨hn, m, hm, rfl⟩⟩ := step_cases h
  · simp [hn]
  · have hv := (mnemonicOf_eq_none_iff _).1 hv
    have hz : (s.readByte s.pc).toNat ≠ 0 := by omega
    simp [hn, hv, hz]
  · have hle : ¬ 6 ≤ (opcodeOf m).toNat := by have := opcodeOf_toNat_le_five m; omega
    simp [hn, opcodeOf_of_mnemonicOf hm, execState_obs, opcodeOf_toNat_eq_zero_iff, hle]

end Sys2Proof.Machine
end

section
/-! The invariant `State.Inv` at reset and along a step. -/

namespace Sys2Proof.Machine

theorem State.stopExplained_of_halt {s : State} (ho : s.obs.getLast? = some .halt) (hi : s.ir = 0x00) :
    s.stopExplained = true := by
  simp [State.stopExplained, ho, hi]

theorem State.stopExplained_of_unknownInstruction {s : State}
    (ho : s.obs.getLast? = some (.unknownInstruction s.ir)) : s.stopExplained = true := by
  simp [State.stopExplained, ho]

/-- The unknown-opcode stop keeps the invariant: the event it appends carries the opcode in `IR`, which is none of
the six (60_exceptions.md R210). -/
theorem State.Inv.unknownOpcodeStop {s : State} (h : s.Inv) (hv : mnemonicOf (s.readByte s.pc) = none) :
    (s.fetchOpcode.unknownOpcodeStop (s.readByte s.pc)).Inv := by
  obtain ⟨hmem, hobs, -⟩ := h
  refine ⟨hmem, ?_, fun _ _ => ?_⟩
  · simpa [Event.legal, (mnemonicOf_eq_none_iff _).1 hv] using hobs
  · exact State.stopExplained_of_unknownInstruction (by simp)

/-- A meaning run after the opcode fetch keeps the invariant: where it leaves the core halted it is HLT's, so the last
event is `Halt` and `IR` is 0x00 (43_control.md R141). -/
theorem State.Inv.execFetched {s : State} {m : Mnemonic} (h : s.Inv) (hn : s.run = true)
    (hm : mnemonicOf (s.readByte s.pc) = some m) (op : Byte) :
    (execState (m.toInstr op) s.fetchOpcode).Inv := by
  obtain ⟨hmem, hobs, -⟩ := h
  refine ⟨execState_mem_wf _ _ hmem, ?_, fun _ hrun => ?_⟩
  · by_cases hh : m = .hlt <;> simpa [execState_obs, hh, Event.legal] using hobs
  · have hh : m = .hlt := by simpa [execState_run, hn] using hrun
    subst hh
    exact State.stopExplained_of_halt (by simp [execState_obs])
      ((execState_ir _ _).trans (opcodeOf_of_mnemonicOf hm))

/-- Settles O34, by the cases of a step. -/
theorem stepKeepsInvariant : Obligations.StepKeepsInvariant := by
  intro s t hs h
  obtain ⟨-, ⟨-, rfl⟩ | ⟨-, hv, rfl⟩ | ⟨hn, m, hm, rfl⟩⟩ := step_cases h
  · exact hs
  · exact hs.unknownOpcodeStop hv
  · exact hs.execFetched hn hm _

/-- Settles O33: every register that is free at construction is one that `reset` writes. -/
theorem resetStateMeetsInvariant : Obligations.ResetStateMeetsInvariant :=
  ⟨⟨State.reset_mem_wf, rfl, fun _ hrun => nomatch hrun⟩, fun _ => rfl⟩

end Sys2Proof.Machine
end

section
/-! What every step keeps, a run keeps; with it, that no command takes an event off `OBS`. -/

namespace Sys2Proof.Machine

theorem runLoop_of_halted (bound : Nat) {s : State} (hn : s.run = false) : runLoop bound s = .ended s := by
  cases bound <;> simp [runLoop, hn]

theorem runLoop_zero_of_running {s : State} (hn : s.run = true) : runLoop 0 s = .abandoned s := by
  simp [runLoop, hn]

theorem runLoop_succ_of_next (bound : Nat) {s t : State} (hn : s.run = true) (h : step s = .next t) :
    runLoop (bound + 1) s = runLoop bound t := by
  simp [runLoop, hn, h]

theorem runLoop_succ_of_refused (bound : Nat) {s : State} {r : Refusal} (hn : s.run = true)
    (h : step s = .refused r) : runLoop (bound + 1) s = .refused r := by
  simp [runLoop, hn, h]

theorem eq_of_runLoop_of_halted {bound : Nat} {s t : State} (hn : s.run = false)
    (h : runLoop bound s = .ended t ∨ runLoop bound s = .abandoned t) : s = t := by
  simpa [runLoop_of_halted bound hn] using h

/-- The run loop's induction, once: a property that every step keeps holds of the state a run is left in. -/
theorem runLoop_keeps {P : State → Prop} (hstep : ∀ s t, P s → step s = .next t → P t) (bound : Nat)
    {s t : State} (hs : P s) (h : runLoop bound s = .ended t ∨ runLoop bound s = .abandoned t) : P t := by
  induction bound generalizing s with
  | zero =>
    rcases hn : s.run with _ | _
    · exact eq_of_runLoop_of_halted hn h ▸ hs
    · have hst : s = t := by simpa [runLoop_zero_of_running hn] using h
      exact hst ▸ hs
  | succ bound ih =>
    rcases hn : s.run with _ | _
    · exact eq_of_runLoop_of_halted hn h ▸ hs
    · rcases hst : step s with u | f | r
      · rw [runLoop_succ_of_next bound hn hst] at h
        exact ih (hstep s u hs hst) h
      · exact nomatch f
      · simp [runLoop_succ_of_refused bound hn hst] at h

theorem step_obs_prefix {s t : State} (h : step s = .next t) : s.obs <+: t.obs :=
  ⟨_, (stepAppendsAtMostOneEvent s t h).symm⟩

theorem runFor_obs_prefix {bound : Nat} {s t : State}
    (h : runFor bound s = .ended t ∨ runFor bound s = .abandoned t) : s.obs <+: t.obs :=
  runLoop_keeps (P := fun u => s.obs <+: u.obs) (fun _ _ hu hst => hu.trans (step_obs_prefix hst)) bound
    (s := s.applyReset) List.prefix_rfl h

/-- A step command that answers a next state is a step that does. -/
theorem perform_step_next {bound : Nat} {s t : State} {r : Response} (h : perform bound .step s = .next (t, r)) :
    step s = .next t := by
  rcases hst : step s with u | f | f
  · simp only [perform, hst] at h
    cases h; rfl
  · exact nomatch f
  · simp [perform, hst] at h

/-- The state a run command answers is the one the run is left in. -/
theorem perform_run_next {bound : Nat} {s t : State} {r : Response} (h : perform bound .run s = .next (t, r)) :
    runFor bound s = .ended t ∨ runFor bound s = .abandoned t := by
  rcases hrun : runFor bound s with u | u | f
  · simp only [perform, hrun] at h
    cases h; exact .inl rfl
  · simp only [perform, hrun] at h
    cases h; exact .inr rfl
  · simp [perform, hrun] at h

theorem perform_obs_eq {bound : Nat} {c : Command} {s t : State} {r : Response} (hs : c ≠ .step) (hr : c ≠ .run)
    (h : perform bound c s = .next (t, r)) : t.obs = s.obs := by
  cases c with
  | step => exact absurd rfl hs
  | run => exact absurd rfl hr
  | setMemory x v => cases h; exact State.setMemory_obs s x v
  | loadProgram | getMemory | reset | statusRead => cases h; rfl

theorem perform_obs_prefix {bound : Nat} {c : Command} {s t : State} {r : Response}
    (h : perform bound c s = .next (t, r)) : s.obs <+: t.obs := by
  by_cases hs : c = .step
  · subst hs
    exact step_obs_prefix (perform_step_next h)
  · by_cases hr : c = .run
    · subst hr
      exact runFor_obs_prefix (perform_run_next h)
    · exact perform_obs_eq hs hr h ▸ List.prefix_rfl

/-- Settles O42: after every command `OBS` begins with what it was before, and only `step` and `run` change it. -/
theorem commandsOnlyExtendTrace : Obligations.CommandsOnlyExtendTrace := by
  intro bound c s t r h
  obtain ⟨es, hes⟩ := perform_obs_prefix h
  refine ⟨es, hes.symm, fun hs hr => ?_⟩
  rwa [perform_obs_eq hs hr h, List.append_right_eq_self] at hes

end Sys2Proof.Machine
end

section
/-! A memory in canonical form is determined by what it reads as (20_memory.md R40, R42; log entry 1). -/

namespace Sys2Proof.Machine

/-- A canonical memory lists no cell below its bound. -/
theorem Memory.read_eq_zero_of_lt {lo a : Nat} {m : Memory} (hm : Memory.wfFrom lo m = true) (ha : a < lo) :
    m.read a = 0 := by
  induction m generalizing lo with
  | nil => rfl
  | cons c m ih =>
    obtain ⟨k, v⟩ := c
    obtain ⟨hlo, -, -, htail⟩ := (Memory.wfFrom_cons ..).1 hm
    rw [Memory.read_cons, if_neg (by omega)]
    exact ih htail (by omega)

@[simp] theorem Memory.read_cons_head (k : Nat) (v : Byte) (m : Memory) : Memory.read ((k, v) :: m) k = v :=
  if_pos rfl

/-- The lowest address a canonical memory lists is one at which it reads as no zero, so no canonical memory that reads
the same there begins above it. -/
theorem Memory.le_head_of_read_eq {lo lo' k k' : Nat} {v v' : Byte} {m n : Memory}
    (hm : Memory.wfFrom lo ((k, v) :: m) = true) (hn : Memory.wfFrom lo' ((k', v') :: n) = true)
    (h : Memory.read ((k, v) :: m) k = Memory.read ((k', v') :: n) k) : k' ≤ k := by
  obtain ⟨-, -, hv, -⟩ := (Memory.wfFrom_cons ..).1 hm
  obtain ⟨-, hk', hv', htail⟩ := (Memory.wfFrom_cons ..).1 hn
  by_contra hlt
  have hn' : Memory.wfFrom k' ((k', v') :: n) = true := (Memory.wfFrom_cons ..).2 ⟨le_rfl, hk', hv', htail⟩
  rw [Memory.read_cons_head, Memory.read_eq_zero_of_lt hn' (by omega)] at h
  exact hv h

/-- A canonical memory that reads as zero everywhere lists nothing. -/
theorem Memory.eq_nil_of_read_eq_zero {lo : Nat} {m : Memory} (hm : Memory.wfFrom lo m = true)
    (h : ∀ x, m.read x = 0) : m = [] := by
  cases m with
  | nil => rfl
  | cons c m =>
    obtain ⟨k, v⟩ := c
    obtain ⟨-, -, hv, -⟩ := (Memory.wfFrom_cons ..).1 hm
    exact absurd ((Memory.read_cons_head k v m).symm.trans (h k)) hv

/-- Two memories that begin with the same cell, and list it once, read alike only where their tails do. -/
theorem Memory.tail_read_eq {k : Nat} {v : Byte} {m n : Memory} (hm : Memory.wfFrom (k + 1) m = true)
    (hn : Memory.wfFrom (k + 1) n = true) {x : Nat}
    (h : Memory.read ((k, v) :: m) x = Memory.read ((k, v) :: n) x) : m.read x = n.read x := by
  by_cases hx : k = x
  · rw [Memory.read_eq_zero_of_lt hm (by omega), Memory.read_eq_zero_of_lt hn (by omega)]
  · rwa [Memory.read_cons, Memory.read_cons, if_neg hx, if_neg hx] at h

theorem Memory.eq_of_read_eq {lo lo' : Nat} {m n : Memory} (hm : Memory.wfFrom lo m = true)
    (hn : Memory.wfFrom lo' n = true) (h : ∀ x, m.read x = n.read x) : m = n := by
  induction m generalizing lo lo' n with
  | nil => exact (Memory.eq_nil_of_read_eq_zero hn fun x => (h x).symm).symm
  | cons c m ih =>
    cases n with
    | nil => exact Memory.eq_nil_of_read_eq_zero hm h
    | cons d n =>
      obtain ⟨k, v⟩ := c
      obtain ⟨k', v'⟩ := d
      have hk : k = k' :=
        le_antisymm (Memory.le_head_of_read_eq hn hm (h k').symm) (Memory.le_head_of_read_eq hm hn (h k))
      subst hk
      have hv : v = v' := by simpa using h k
      subst hv
      obtain ⟨-, -, -, hm⟩ := (Memory.wfFrom_cons ..).1 hm
      obtain ⟨-, -, -, hn⟩ := (Memory.wfFrom_cons ..).1 hn
      rw [ih hm hn fun x => Memory.tail_read_eq hm hn (h x)]

/-- Settles O36, by induction on the list of cells, with any lower bounds on the addresses. -/
theorem canonicalMemoryIsUnique : Obligations.CanonicalMemoryIsUnique :=
  fun _ _ hm hn h => Memory.eq_of_read_eq hm hn h

end Sys2Proof.Machine
end

section
/-! The access list of a step, case by case, and that what a step does to memory and registers is what the list says
(20_memory.md R51, R54; 10_state.md R36). -/

namespace Sys2Proof.Machine

/-! ### The access list (20_memory.md R51) -/

theorem stepAccesses_of_gated {s : State} (h : ¬ (s.rst = true ∧ s.run = true)) : stepAccesses s = [] :=
  if_neg (by simpa using h)

theorem stepAccesses_of_unknownOpcode {s : State} (hr : s.rst = true) (hn : s.run = true)
    (hv : mnemonicOf (s.readByte s.pc) = none) : stepAccesses s = [.read s.pc] := by
  simp [stepAccesses, hr, hn, hv]

theorem stepAccesses_of_mnemonicOf {s : State} {m : Mnemonic} (hr : s.rst = true) (hn : s.run = true)
    (hm : mnemonicOf (s.readByte s.pc) = some m) :
    stepAccesses s = .read s.pc :: accessesAfterOpcode m s.pc (s.readByte (inc s.pc)) := by
  simp [stepAccesses, hr, hn, hm]

/-- Every step that is not gated reads its opcode byte. -/
theorem read_pc_mem_stepAccesses {s : State} (hr : s.rst = true) (hn : s.run = true) :
    Access.read s.pc ∈ stepAccesses s := by
  rcases hm : mnemonicOf (s.readByte s.pc) with _ | m
  · rw [stepAccesses_of_unknownOpcode hr hn hm]; exact List.mem_cons_self
  · rw [stepAccesses_of_mnemonicOf hr hn hm]; exact List.mem_cons_self

/-- Every instruction but HLT reads its operand byte. -/
theorem read_operand_mem_accessesAfterOpcode {m : Mnemonic} (hm : m ≠ .hlt) (a op : Byte) :
    Access.read (inc a) ∈ accessesAfterOpcode m a op := by
  cases m with
  | hlt => exact absurd rfl hm
  | lda | sta | add | sub | jmp => exact List.mem_cons_self

/-- Only STA writes, and only at its operand. -/
theorem write_mem_accessesAfterOpcode_iff {m : Mnemonic} {a op x : Byte} :
    Access.write x ∈ accessesAfterOpcode m a op ↔ m = .sta ∧ x = op := by
  cases m <;> simp [accessesAfterOpcode]

/-- Settles O28: a byte that changed is the operand of an STA (O23), which the list writes. -/
theorem stepWritesOnlyListedAddresses : Obligations.StepWritesOnlyListedAddresses := by
  intro s t x h hx
  by_contra hne
  obtain ⟨hn, hop, hx'⟩ := memoryWrittenOnlyBySta s t x.toNat h hne
  obtain ⟨hr, -⟩ := step_cases h
  have hm : mnemonicOf (s.readByte s.pc) = some .sta := hop ▸ mnemonicOf_opcodeOf .sta
  apply hx
  rw [stepAccesses_of_mnemonicOf hr hn hm, inc_eq]
  exact List.mem_cons_of_mem _ (write_mem_accessesAfterOpcode_iff.2 ⟨rfl, BitVec.eq_of_toNat_eq hx'⟩)

/-! ### A store and the next fetch (20_memory.md R54) -/

@[simp] theorem State.readByte_execState_sta (s : State) (op x : Byte) :
    (execState (.sta op) s).readByte x = if x = op then s.a else s.readByte x :=
  State.readByte_writeByte s.passOperand op s.a x

/-- Settles O25: the second step's `IR` is the byte at `PC` after the first, the address the first one stored to. -/
theorem nextFetchSeesStore : Obligations.NextFetchSeesStore := by
  intro s hr hn hop hea
  have hm : mnemonicOf (s.readByte s.pc) = some .sta := hop ▸ mnemonicOf_opcodeOf .sta
  have hstep := step_of_mnemonicOf hr hn hm
  rw [inc_eq, hea] at hstep
  obtain ⟨u, hu, hir⟩ := instructionRegisterHoldsFetchedOpcode (execState (.sta (s.pc + 2)) s.fetchOpcode) hr hn
  refine ⟨_, u, hstep, hu, ?_⟩
  rw [hir, State.readByte_execState_sta]
  exact if_pos (inc_inc_eq s.pc)

/-! ### Updates of two states with equal registers -/

variable {s u : State}

theorem SameRegisters.setA {v v' : Byte} (h : SameRegisters s u) (hv : v' = v) :
    SameRegisters (s.setA v) (u.setA v') := by
  obtain ⟨-, hrest⟩ := h
  exact ⟨hv, hrest⟩

theorem SameRegisters.setPC {v v' : Byte} (h : SameRegisters s u) (hv : v' = v) :
    SameRegisters (s.setPC v) (u.setPC v') := by
  obtain ⟨ha, -, hrest⟩ := h
  exact ⟨ha, hv, hrest⟩

theorem SameRegisters.setIR {v v' : Byte} (h : SameRegisters s u) (hv : v' = v) :
    SameRegisters (s.setIR v) (u.setIR v') := by
  obtain ⟨ha, hpc, -, hrest⟩ := h
  exact ⟨ha, hpc, hv, hrest⟩

theorem SameRegisters.clearRun (h : SameRegisters s u) : SameRegisters s.clearRun u.clearRun := by
  obtain ⟨ha, hpc, hir, -, hrest⟩ := h
  exact ⟨ha, hpc, hir, rfl, hrest⟩

theorem SameRegisters.emit (h : SameRegisters s u) (e : Event) : SameRegisters (s.emit e) (u.emit e) := by
  obtain ⟨ha, hpc, hir, hrun, hrst, hobs⟩ := h
  exact ⟨ha, hpc, hir, hrun, hrst, congrArg (· ++ [e]) hobs⟩

theorem SameRegisters.writeByte (h : SameRegisters s u) (x v v' : Byte) :
    SameRegisters (s.writeByte x v) (u.writeByte x v') := h

theorem SameRegisters.passOperand (h : SameRegisters s u) : SameRegisters s.passOperand u.passOperand := by
  have ⟨_, hpc, _⟩ := h
  exact h.setPC (congrArg inc hpc)

theorem SameRegisters.fetchOpcode (h : SameRegisters s u) (hop : u.readByte u.pc = s.readByte s.pc) :
    SameRegisters s.fetchOpcode u.fetchOpcode := by
  have ⟨_, hpc, _⟩ := h
  exact (h.setIR hop).setPC (congrArg inc hpc)

theorem SameRegisters.unknownOpcodeStop (h : SameRegisters s u) (v : Byte) :
    SameRegisters (s.unknownOpcodeStop v) (u.unknownOpcodeStop v) :=
  (h.emit _).clearRun

/-- A meaning gives equal registers in two states that had equal registers and agree on the bytes that the access list
of the instruction at `a` reads after the opcode. -/
theorem SameRegisters.execState_toInstr {m : Mnemonic} {a op : Byte} (h : SameRegisters s u) (ha : s.pc = inc a)
    (hread : ∀ x, Access.read x ∈ accessesAfterOpcode m a op → u.readByte x = s.readByte x) :
    SameRegisters (execState (m.toInstr op) s) (execState (m.toInstr op) u) := by
  have ⟨hacc, hpc, _⟩ := h
  cases m with
  | hlt => exact h.clearRun.emit .halt
  | lda => exact h.passOperand.setA (hread op (by simp [accessesAfterOpcode]))
  | sta => exact h.passOperand.writeByte op s.a u.a
  | add => exact h.passOperand.setA (congrArg₂ aluAdd hacc (hread op (by simp [accessesAfterOpcode])))
  | sub => exact h.passOperand.setA (congrArg₂ aluSub hacc (hread op (by simp [accessesAfterOpcode])))
  | jmp =>
    refine h.passOperand.setPC ?_
    rw [hpc, ha]
    exact hread _ (by simp [accessesAfterOpcode])

/-! ### A step depends on the listed reads alone -/

/-- The operand byte of an opcode matters to an instruction's accesses only through the instruction: HLT has none. -/
theorem accessesAfterOpcode_congr {m : Mnemonic} {op op' : Byte} (h : m.toInstr op = m.toInstr op') (a : Byte) :
    accessesAfterOpcode m a op = accessesAfterOpcode m a op' := by
  cases m with
  | hlt => rfl
  | lda | sta | add | sub | jmp => cases h; rfl

section

variable (hreg : SameRegisters s u) (hread : ∀ x, Access.read x ∈ stepAccesses s → u.readByte x = s.readByte x)
include hreg hread

theorem opcode_eq_of_agree (hr : s.rst = true) (hn : s.run = true) : u.readByte u.pc = s.readByte s.pc := by
  obtain ⟨-, hpc, -⟩ := hreg
  rw [hpc, hread _ (read_pc_mem_stepAccesses hr hn)]

theorem toInstr_operand_eq_of_agree {m : Mnemonic} (hr : s.rst = true) (hn : s.run = true)
    (hm : mnemonicOf (s.readByte s.pc) = some m) :
    m.toInstr (u.readByte (inc u.pc)) = m.toInstr (s.readByte (inc s.pc)) := by
  obtain ⟨-, hpc, -⟩ := hreg
  rw [stepAccesses_of_mnemonicOf hr hn hm] at hread
  by_cases hh : m = .hlt
  · subst hh; rfl
  · rw [hpc, hread _ (List.mem_cons_of_mem _ (read_operand_mem_accessesAfterOpcode hh _ _))]

/-- The list itself depends only on the reads it lists: the opcode byte, and the operand byte where there is one. -/
theorem stepAccesses_eq_of_agree : stepAccesses u = stepAccesses s := by
  have ⟨_, hpc, _, hrun, hrst, _⟩ := hreg
  by_cases hgate : s.rst = true ∧ s.run = true
  · obtain ⟨hr, hn⟩ := hgate
    have hop := opcode_eq_of_agree hreg hread hr hn
    rcases hm : mnemonicOf (s.readByte s.pc) with _ | m
    · rw [stepAccesses_of_unknownOpcode hr hn hm,
        stepAccesses_of_unknownOpcode (hrst.trans hr) (hrun.trans hn) (hop ▸ hm), hpc]
    · rw [stepAccesses_of_mnemonicOf hr hn hm,
        stepAccesses_of_mnemonicOf (hrst.trans hr) (hrun.trans hn) (hop ▸ hm),
        accessesAfterOpcode_congr (toInstr_operand_eq_of_agree hreg hread hr hn hm), hpc]
  · rw [stepAccesses_of_gated hgate, stepAccesses_of_gated (by rwa [hrst, hrun])]

end

theorem step_of_halted (hr : s.rst = true) (hn : s.run = false) : step s = .next s := by
  rw [step_eq, if_neg (by simp [hr]), if_pos hn]

/-- Settles O27, by the cases of a step: both states run the same instruction, on registers and listed bytes that are
equal, and an STA writes the same accumulator. -/
theorem stepDependsOnlyOnListedReads : Obligations.StepDependsOnlyOnListedReads := by
  intro s u hreg hread
  refine ⟨stepAccesses_eq_of_agree hreg hread, fun t h => ?_⟩
  have ⟨hacc, _, _, hrun, hrst, _⟩ := hreg
  obtain ⟨hr, ⟨hn, rfl⟩ | ⟨hn, hm, rfl⟩ | ⟨hn, m, hm, rfl⟩⟩ := step_cases h
  · refine ⟨u, step_of_halted (hrst.trans hr) (hrun.trans hn), hreg, fun x hx => ?_⟩
    simp [stepAccesses_of_gated, hn] at hx
  · have hop := opcode_eq_of_agree hreg hread hr hn
    refine ⟨_, step_of_unknownOpcode (hrst.trans hr) (hrun.trans hn) (hop ▸ hm), ?_, fun x hx => ?_⟩
    · rw [hop]
      exact (hreg.fetchOpcode hop).unknownOpcodeStop _
    · simp [stepAccesses_of_unknownOpcode hr hn hm] at hx
  · have hop := opcode_eq_of_agree hreg hread hr hn
    have hinstr := toInstr_operand_eq_of_agree hreg hread hr hn hm
    rw [stepAccesses_of_mnemonicOf hr hn hm] at hread ⊢
    refine ⟨_, step_of_mnemonicOf (hrst.trans hr) (hrun.trans hn) (hop ▸ hm), ?_, fun x hx => ?_⟩ <;> rw [hinstr]
    · exact (hreg.fetchOpcode hop).execState_toInstr rfl fun x hx => hread x (List.mem_cons_of_mem _ hx)
    · obtain ⟨rfl, rfl⟩ : m = .sta ∧ x = s.readByte (inc s.pc) := by
        simpa [write_mem_accessesAfterOpcode_iff] using hx
      simpa [Mnemonic.toInstr] using hacc

end Sys2Proof.Machine
end

section
/-! Decoding, parsing and encoding agree (30_encoding.md R60 to R67): what the decoder and the parser read where a
mnemonic's bytes stand in front. -/

namespace Sys2Proof

theorem mnemonicOf_eq_some_iff (v : Byte) (m : Mnemonic) : mnemonicOf v = some m ↔ v = opcodeOf m :=
  ⟨opcodeOf_of_mnemonicOf, fun h => h ▸ mnemonicOf_opcodeOf m⟩

theorem arityOf_eq (m : Mnemonic) : arityOf m = if m = .hlt then 0 else 1 := by
  cases m <;> decide

theorem opcodeLength_of_none {v : Byte} (h : mnemonicOf v = none) : opcodeLength v = 1 := by
  simp only [opcodeLength, h]

theorem opcodeLength_opcodeOf (m : Mnemonic) : opcodeLength (opcodeOf m) = 1 + arityOf m := by
  simp only [opcodeLength, mnemonicOf_opcodeOf]

theorem decode_of_arity_zero {v : Byte} {m : Mnemonic} (h : mnemonicOf v = some m) (hm : arityOf m = 0)
    (rest : List Byte) : decode (v :: rest) = .instr (m.toInstr 0) rest := by
  simp only [decode, h, if_pos hm]

theorem decode_of_missing_operand {v : Byte} {m : Mnemonic} (h : mnemonicOf v = some m) (hm : arityOf m ≠ 0) :
    decode [v] = .missingOperand v := by
  simp only [decode, h, if_neg hm]

theorem encode_toInstr_of_arity_zero {m : Mnemonic} (hm : arityOf m = 0) (op : Byte) :
    encode (m.toInstr op) = [opcodeOf m] := by
  obtain rfl := (arityOf_eq_zero_iff m).1 hm
  rfl

theorem encode_toInstr {m : Mnemonic} (hm : arityOf m ≠ 0) (op : Byte) : encode (m.toInstr op) = [opcodeOf m, op] := by
  cases m with
  | hlt => exact absurd rfl hm
  | _ => rfl

/-- Every instruction is one of a mnemonic with no operand byte, or of one with its operand byte. -/
theorem Instr.exists_toInstr (i : Instr) :
    (∃ m : Mnemonic, arityOf m = 0 ∧ i = m.toInstr 0) ∨
      ∃ (m : Mnemonic) (op : Byte), arityOf m ≠ 0 ∧ i = m.toInstr op := by
  cases i with
  | hlt => exact .inl ⟨.hlt, by decide, rfl⟩
  | lda op => exact .inr ⟨.lda, op, by decide, rfl⟩
  | sta op => exact .inr ⟨.sta, op, by decide, rfl⟩
  | add op => exact .inr ⟨.add, op, by decide, rfl⟩
  | sub op => exact .inr ⟨.sub, op, by decide, rfl⟩
  | jmp op => exact .inr ⟨.jmp, op, by decide, rfl⟩

theorem decode_encode_append (i : Instr) (rest : List Byte) : decode (encode i ++ rest) = .instr i rest := by
  obtain ⟨m, hm, rfl⟩ | ⟨m, op, hm, rfl⟩ := i.exists_toInstr
  · rw [encode_toInstr_of_arity_zero hm]
    exact decode_of_arity_zero (mnemonicOf_opcodeOf m) hm rest
  · rw [encode_toInstr hm]
    exact decode_of_some (mnemonicOf_opcodeOf m) hm op rest

theorem eq_encode_append_of_decode {bytes rest : List Byte} {i : Instr} (h : decode bytes = .instr i rest) :
    bytes = encode i ++ rest := by
  rcases bytes with _ | ⟨v, bytes⟩
  · cases h
  rcases hv : mnemonicOf v with _ | m
  · cases (decode_of_none hv bytes).symm.trans h
  obtain rfl := opcodeOf_of_mnemonicOf hv
  by_cases hm : arityOf m = 0
  · cases (decode_of_arity_zero hv hm bytes).symm.trans h
    rw [encode_toInstr_of_arity_zero hm, List.singleton_append]
  · rcases bytes with _ | ⟨op, bytes⟩
    · cases (decode_of_missing_operand hv hm).symm.trans h
    · cases (decode_of_some hv hm op bytes).symm.trans h
      rw [encode_toInstr hm, List.cons_append, List.singleton_append]

theorem parseProgram_of_arity_zero {v : Byte} {m : Mnemonic} (h : mnemonicOf v = some m) (hm : arityOf m = 0)
    (rest : List Byte) : parseProgram (v :: rest) = (parseProgram rest).map (m.toInstr 0 :: ·) := by
  cases rest with
  | nil => simp only [parseProgram, h, if_pos hm, Option.map_some]
  | cons op rest => simp only [parseProgram, h, if_pos hm]

theorem parseProgram_of_some {v : Byte} {m : Mnemonic} (h : mnemonicOf v = some m) (hm : arityOf m ≠ 0) (op : Byte)
    (rest : List Byte) : parseProgram (v :: op :: rest) = (parseProgram rest).map (m.toInstr op :: ·) := by
  simp only [parseProgram, h, if_neg hm]

theorem parseProgram_encode_append (i : Instr) (rest : List Byte) :
    parseProgram (encode i ++ rest) = (parseProgram rest).map (i :: ·) := by
  obtain ⟨m, hm, rfl⟩ | ⟨m, op, hm, rfl⟩ := i.exists_toInstr
  · rw [encode_toInstr_of_arity_zero hm]
    exact parseProgram_of_arity_zero (mnemonicOf_opcodeOf m) hm rest
  · rw [encode_toInstr hm]
    exact parseProgram_of_some (mnemonicOf_opcodeOf m) hm op rest

theorem parseProgram_encodeProgram (p : List Instr) : parseProgram (encodeProgram p) = some p := by
  induction p with
  | nil => rfl
  | cons i is ih => rw [encodeProgram, parseProgram_encode_append, ih, Option.map_some]

theorem encodeProgram_singleton (i : Instr) : encodeProgram [i] = encode i :=
  List.append_nil (encode i)

theorem encodeProgram_append (p q : List Instr) : encodeProgram (p ++ q) = encodeProgram p ++ encodeProgram q := by
  induction p with
  | nil => rfl
  | cons i is ih => rw [List.cons_append, encodeProgram, encodeProgram, ih, List.append_assoc]

end Sys2Proof

namespace Sys2Proof.Machine

/-- Settles O29: an encoding decodes to its instruction, whatever follows, and only an encoding does. -/
theorem decodeEncodeAgree : Obligations.DecodeEncodeAgree :=
  fun i _ rest _ => ⟨eq_encode_append_of_decode, fun h => h ▸ decode_encode_append i rest⟩

/-- Settles O32, by induction on the program. -/
theorem programParsesBack : Obligations.ProgramParsesBack :=
  parseProgram_encodeProgram

/-- Settles O30, from the table read as a function each way; a byte's length is its mnemonic's arity and one. -/
theorem lookUpTableIsExact : Obligations.LookUpTableIsExact := by
  refine ⟨by decide, mnemonicOf_eq_some_iff, mnemonicOf_eq_none_iff, arityOf_eq, fun v => ?_⟩
  rcases hv : mnemonicOf v with _ | m
  · rw [opcodeLength_of_none hv, if_pos (.inr ((mnemonicOf_eq_none_iff v).1 hv))]
  · obtain rfl := opcodeOf_of_mnemonicOf hv
    rw [opcodeLength_opcodeOf]
    cases m <;> decide

/-- Settles O31: the decoder run on each word (`tableBytes` puts bits 7..0 first). -/
theorem encodedWordsDecode : Obligations.EncodedWordsDecode := by
  unfold Obligations.EncodedWordsDecode
  decide

end Sys2Proof.Machine
end

section
/-! What the assembler answers is always a program laid end to end (30_encoding.md R67, 44_assembler.md R178): a line
gives no instruction or one, and lines are joined in order. -/

namespace Sys2Proof.Machine

theorem assembleOperand_ok {line : List Byte} {rest : List (List Byte)} {opcode : Byte} {bytes : List Byte}
    (h : assembleOperand line rest opcode = .ok bytes) : ∃ op : Byte, bytes = [opcode, op] := by
  unfold assembleOperand at h
  split at h
  · cases h
  · split at h
    · cases h
    · next op _ =>
      cases h
      exact ⟨op, rfl⟩

/-- A line that assembles is blank, a comment, or one instruction. -/
theorem assembleLine_ok {line bytes : List Byte} (h : assembleLine line = .ok bytes) :
    bytes = [] ∨ ∃ i : Instr, bytes = encode i := by
  unfold assembleLine at h
  split at h
  · cases h
    exact .inl rfl
  · split at h
    · cases h
      exact .inl rfl
    · split at h
      · cases h
      · next m _ =>
        split at h
        · next hm =>
          cases h
          exact .inr ⟨m.toInstr 0, (encode_toInstr_of_arity_zero hm 0).symm⟩
        · next hm =>
          obtain ⟨op, rfl⟩ := assembleOperand_ok h
          exact .inr ⟨m.toInstr op, (encode_toInstr hm op).symm⟩

theorem assembleLine_ok_encodeProgram {line bytes : List Byte} (h : assembleLine line = .ok bytes) :
    ∃ p : List Instr, encodeProgram p = bytes := by
  obtain rfl | ⟨i, rfl⟩ := assembleLine_ok h
  · exact ⟨[], rfl⟩
  · exact ⟨[i], encodeProgram_singleton i⟩

/-- Lines that assemble are a first line and further lines that do, their bytes joined in order (R172). -/
theorem assembleLines_cons_ok {line : List Byte} {lines : List (List Byte)} {bytes : List Byte}
    (h : assembleLines (line :: lines) = .ok bytes) :
    ∃ b more, assembleLine line = .ok b ∧ assembleLines lines = .ok more ∧ bytes = b ++ more := by
  rw [assembleLines] at h
  rcases hl : assembleLine line with b | e
  · rcases hls : assembleLines lines with more | e
    · rw [hl, hls] at h
      cases h
      exact ⟨b, more, rfl, rfl, rfl⟩
    · rw [hl, hls] at h
      cases h
  · rw [hl] at h
    cases h

theorem assembleLines_ok_encodeProgram {lines : List (List Byte)} {bytes : List Byte}
    (h : assembleLines lines = .ok bytes) : ∃ p : List Instr, encodeProgram p = bytes := by
  induction lines generalizing bytes with
  | nil =>
    cases h
    exact ⟨[], rfl⟩
  | cons line lines ih =>
    obtain ⟨b, more, hl, hls, rfl⟩ := assembleLines_cons_ok h
    obtain ⟨p, rfl⟩ := assembleLine_ok_encodeProgram hl
    obtain ⟨q, rfl⟩ := ih hls
    exact ⟨p ++ q, encodeProgram_append p q⟩

/-- Settles O56: the assembler's bytes are some program's encoding, and every program's encoding parses back. -/
theorem assembledBytesParse : Obligations.AssembledBytesParse := by
  intro text bytes h
  obtain ⟨p, rfl⟩ := assembleLines_ok_encodeProgram h
  exact ⟨p, parseProgram_encodeProgram p, rfl⟩

end Sys2Proof.Machine
end

section
/-! The step gate, the decoded instruction, and the explanation of a stop along a step (40_execution_cycle.md R80 to
R90). -/

namespace Sys2Proof.Machine

/-! ### The explanation of a stop (R90) -/

theorem inc_sub_one (x : Byte) : inc x - 1 = x := by
  rw [inc_eq, BitVec.add_sub_cancel]

theorem State.stopShown_unknownOpcodeStop {s : State} (hv : mnemonicOf (s.readByte s.pc) = none) :
    (s.fetchOpcode.unknownOpcodeStop (s.readByte s.pc)).StopShown := by
  refine ⟨congrArg s.readByte (inc_sub_one s.pc), .inr ⟨?_, (mnemonicOf_eq_none_iff _).1 hv⟩⟩
  simp

/-- HLT's meaning leaves `PC` where the opcode fetch left it, one past the 0x00 it fetched (43_control.md R141). -/
theorem State.stopShown_execState_hlt {s : State} (hm : mnemonicOf (s.readByte s.pc) = some .hlt) :
    (execState .hlt s.fetchOpcode).StopShown := by
  refine ⟨congrArg s.readByte (inc_sub_one s.pc), .inl ⟨?_, opcodeOf_of_mnemonicOf hm⟩⟩
  simp [execState_obs, Instr.mnemonic]

/-- Settles O60, by the cases of a step: of those that run an instruction, only the unknown-opcode stop and HLT leave
the core halted. -/
theorem stepKeepsStopShown : Obligations.StepKeepsStopShown := by
  intro s t hs h ht
  obtain ⟨-, ⟨-, rfl⟩ | ⟨-, hv, rfl⟩ | ⟨hn, m, hm, rfl⟩⟩ := step_cases h
  · exact hs ht
  · exact State.stopShown_unknownOpcodeStop hv
  · obtain rfl : m = .hlt := by simpa [execState_run, hn] using ht
    exact State.stopShown_execState_hlt hm

/-! ### The step gate (R80, R84, R89) -/

theorem stepTimes_succ_of_next (k : Nat) {s t : State} (h : step s = .next t) :
    stepTimes (k + 1) s = stepTimes k t := by
  simp only [stepTimes, h]

theorem stepTimes_succ_of_refused (k : Nat) {s : State} {r : Refusal} (h : step s = .refused r) :
    stepTimes (k + 1) s = .refused r := by
  simp only [stepTimes, h]

/-- Settles O15, by induction on the number of steps. -/
theorem haltedCoreStaysHalted : Obligations.HaltedCoreStaysHalted := by
  intro s hr hn
  refine ⟨stepAccesses_of_gated (by simp [hn]), fun k => ?_⟩
  induction k with
  | zero => rfl
  | succ k ih => rw [stepTimes_succ_of_next k (step_of_halted hr hn), ih]

/-- Settles O19, by the gate on `RUN` and the opcode fetched. -/
theorem stepReturnsNormally : Obligations.StepReturnsNormally := by
  intro s hr
  rcases hn : s.run with _ | _
  · exact ⟨s, step_of_halted hr hn, hr⟩
  · rcases hm : mnemonicOf (s.readByte s.pc) with _ | m
    · exact ⟨_, step_of_unknownOpcode hr hn hm, hr⟩
    · exact ⟨_, step_of_mnemonicOf hr hn hm, (execState_rst _ _).trans hr⟩

theorem step_of_not_reset {s : State} (hr : s.rst = false) : step s = .refused .stepBeforeReset := by
  rw [step_eq, if_pos hr]

/-- Settles O20: with `RST` set a step answers a next state, without it the one refusal. -/
theorem stepRefusedExactlyBeforeReset : Obligations.StepRefusedExactlyBeforeReset := by
  intro s r
  rcases hr : s.rst with _ | _
  · simp [step_of_not_reset hr, eq_comm]
  · obtain ⟨t, ht, -⟩ := stepReturnsNormally s hr
    simp [ht]

/-! ### The decoded instruction (R81, R82) -/

/-- The operand byte decoded with HLT's opcode is free: HLT takes none (30_encoding.md R60). -/
theorem exists_toInstr_of_decode {v op : Byte} {i : Instr} {rest rest' : List Byte}
    (h : decode (v :: op :: rest) = .instr i rest') : ∃ m, mnemonicOf v = some m ∧ i = m.toInstr op := by
  rcases hm : mnemonicOf v with _ | m
  · cases (decode_of_none hm _).symm.trans h
  · refine ⟨m, rfl, ?_⟩
    by_cases ha : arityOf m = 0
    · cases (decode_of_arity_zero hm ha _).symm.trans h
      obtain rfl := (arityOf_eq_zero_iff m).1 ha
      rfl
    · cases (decode_of_some hm ha op rest).symm.trans h
      rfl

theorem State.fetchOpcode_eq (s : State) : s.fetchOpcode = { s with ir := s.readByte s.pc, pc := s.pc + 1 } := by
  rw [← inc_eq]
  rfl

/-- Settles O16: the two bytes decode to the mnemonic's instruction with the operand byte at `PC + 1`. -/
theorem stepRunsDecodedInstruction : Obligations.StepRunsDecodedInstruction := by
  intro s i rest hr hn h
  obtain ⟨m, hm, rfl⟩ := exists_toInstr_of_decode h
  rw [step_of_mnemonicOf hr hn hm, exec_eq, ← State.fetchOpcode_eq, inc_eq]

end Sys2Proof.Machine
end

section
/-! The run loop as counted steps, and what a run ends in (40_execution_cycle.md R86 to R90). -/

namespace Sys2Proof.Machine

/-! ### Counted steps to a halt -/

/-- `s` first halts after exactly `k` steps, in `t`: the core was running after every smaller number (R90). -/
def State.HaltsAfter (k : Nat) (s t : State) : Prop :=
  stepTimes k s = .next t ∧ t.run = false ∧ ∀ j, j < k → ∃ u, stepTimes j s = .next u ∧ u.run = true

theorem State.haltsAfter_zero_iff {s t : State} : State.HaltsAfter 0 s t ↔ s = t ∧ s.run = false := by
  constructor
  · rintro ⟨h, ht, -⟩
    obtain rfl := Host.Outcome.next.inj h
    exact ⟨rfl, ht⟩
  · rintro ⟨rfl, hn⟩
    exact ⟨rfl, hn, fun _ hj => absurd hj (Nat.not_lt_zero _)⟩

theorem State.HaltsAfter.run_of_succ {k : Nat} {s t : State} (h : State.HaltsAfter (k + 1) s t) : s.run = true := by
  obtain ⟨-, -, hrun⟩ := h
  obtain ⟨u, hu, hn⟩ := hrun 0 k.succ_pos
  obtain rfl := Host.Outcome.next.inj hu
  exact hn

theorem State.haltsAfter_succ_iff {k : Nat} {s u t : State} (hn : s.run = true) (h : step s = .next u) :
    State.HaltsAfter (k + 1) s t ↔ State.HaltsAfter k u t := by
  have hzero : ∃ v, stepTimes 0 s = .next v ∧ v.run = true := ⟨s, rfl, hn⟩
  simp only [State.HaltsAfter, Nat.forall_lt_succ_left, hzero, true_and, stepTimes_succ_of_next _ h]

theorem State.not_haltsAfter_succ_of_refused {k : Nat} {s t : State} {r : Refusal} (h : step s = .refused r) :
    ¬ State.HaltsAfter (k + 1) s t := by
  rintro ⟨ht, -⟩
  cases (stepTimes_succ_of_refused k h).symm.trans ht

/-! ### The loop's verdicts (R86 to R88) -/

theorem run_of_stepTimes {k : Nat} {s t : State} (h : stepTimes k s = .next t) (ht : t.run = true) :
    s.run = true := by
  induction k generalizing s with
  | zero => exact Host.Outcome.next.inj h ▸ ht
  | succ k ih =>
    rcases hst : step s with u | f | r
    · rw [stepTimes_succ_of_next k hst] at h
      exact ((runFlagClearedOnlyByHltOrUnknown s u hst).1 (ih h)).1
    · exact nomatch f
    · cases (stepTimes_succ_of_refused k hst).symm.trans h

/-- The loop ends exactly where the core first halts, if that is within the bound. -/
theorem runLoop_eq_ended_iff {bound : Nat} {s t : State} :
    runLoop bound s = .ended t ↔ ∃ k, k ≤ bound ∧ State.HaltsAfter k s t := by
  induction bound generalizing s with
  | zero =>
    rcases hn : s.run with _ | _
    · simp [runLoop_of_halted 0 hn, State.haltsAfter_zero_iff, hn]
    · simp [runLoop_zero_of_running hn, State.haltsAfter_zero_iff, hn]
  | succ bound ih =>
    rcases hn : s.run with _ | _
    · rw [runLoop_of_halted _ hn, RunVerdict.ended.injEq]
      constructor
      · exact fun hst => ⟨0, Nat.zero_le _, State.haltsAfter_zero_iff.2 ⟨hst, hn⟩⟩
      · rintro ⟨_ | k, -, h⟩
        · exact (State.haltsAfter_zero_iff.1 h).1
        · simp [h.run_of_succ] at hn
    · have hpos : ¬ State.HaltsAfter 0 s t := by simp [State.haltsAfter_zero_iff, hn]
      rcases hst : step s with u | f | r
      · rw [runLoop_succ_of_next bound hn hst, ih]
        constructor
        · rintro ⟨k, hk, h⟩
          exact ⟨k + 1, Nat.succ_le_succ hk, (State.haltsAfter_succ_iff hn hst).2 h⟩
        · rintro ⟨_ | k, hk, h⟩
          · exact absurd h hpos
          · exact ⟨k, Nat.le_of_succ_le_succ hk, (State.haltsAfter_succ_iff hn hst).1 h⟩
      · exact nomatch f
      · rw [runLoop_succ_of_refused bound hn hst]
        refine iff_of_false nofun ?_
        rintro ⟨_ | k, -, h⟩
        · exact hpos h
        · exact State.not_haltsAfter_succ_of_refused hst h

/-- The loop is abandoned exactly where the bound's steps leave the core running. -/
theorem runLoop_eq_abandoned_iff {bound : Nat} {s t : State} :
    runLoop bound s = .abandoned t ↔ stepTimes bound s = .next t ∧ t.run = true := by
  induction bound generalizing s with
  | zero =>
    rw [stepTimes, Host.Outcome.next.injEq]
    rcases hn : s.run with _ | _
    · rw [runLoop_of_halted 0 hn]
      refine iff_of_false nofun ?_
      rintro ⟨rfl, ht⟩
      simp [ht] at hn
    · rw [runLoop_zero_of_running hn, RunVerdict.abandoned.injEq]
      exact ⟨fun h => ⟨h, h ▸ hn⟩, And.left⟩
  | succ bound ih =>
    rcases hn : s.run with _ | _
    · rw [runLoop_of_halted _ hn]
      refine iff_of_false nofun ?_
      rintro ⟨h, ht⟩
      simp [run_of_stepTimes h ht] at hn
    · rcases hst : step s with u | f | r
      · rw [runLoop_succ_of_next bound hn hst, stepTimes_succ_of_next bound hst, ih]
      · exact nomatch f
      · simp [runLoop_succ_of_refused bound hn hst, stepTimes_succ_of_refused bound hst]

/-- After the first reset no step is refused, so no run is (R84). -/
theorem runLoop_ne_refused {bound : Nat} {s : State} (hr : s.rst = true) (r : Refusal) :
    runLoop bound s ≠ .refused r := by
  induction bound generalizing s with
  | zero =>
    rcases hn : s.run with _ | _
    · simp [runLoop_of_halted 0 hn]
    · simp [runLoop_zero_of_running hn]
  | succ bound ih =>
    rcases hn : s.run with _ | _
    · simp [runLoop_of_halted _ hn]
    · obtain ⟨t, ht, hrt⟩ := stepReturnsNormally s hr
      rw [runLoop_succ_of_next bound hn ht]
      exact ih hrt

/-! ### Runs -/

/-- Settles O43: the loop's two verdicts, from the reset state. -/
theorem runIsResetThenSteps : Obligations.RunIsResetThenSteps :=
  fun _ _ _ => ⟨runLoop_eq_ended_iff, runLoop_eq_abandoned_iff⟩

theorem runFor_ended_mono {bound more : Nat} {s t : State} (h : runFor bound s = .ended t) :
    runFor (bound + more) s = .ended t := by
  obtain ⟨k, hk, hhalt⟩ := runLoop_eq_ended_iff.1 h
  exact runLoop_eq_ended_iff.2 ⟨k, Nat.le_add_right_of_le hk, hhalt⟩

/-- Settles O45: two runs that end, with different bounds, are compared at the sum of the bounds. -/
theorem runHasOneFinalState : Obligations.RunHasOneFinalState := by
  refine ⟨fun _ _ _ _ => runFor_ended_mono, ?_⟩
  rintro s t u ⟨b, ht⟩ ⟨c, hu⟩
  have ht' : runFor (b + c) s = .ended t := runFor_ended_mono ht
  have hu' : runFor (b + c) s = .ended u := Nat.add_comm c b ▸ runFor_ended_mono hu
  exact RunVerdict.ended.inj (ht'.symm.trans hu')

/-- Settles O46: a run is never refused, so what has not ended within a bound is abandoned there. -/
theorem runEndsOrHangs : Obligations.RunEndsOrHangs := by
  intro s
  constructor
  · rintro hangs ⟨t, bound, ht⟩
    obtain ⟨u, hu⟩ := hangs bound
    cases ht.symm.trans hu
  · intro noEnd bound
    rcases h : runFor bound s with t | t | r
    · exact absurd ⟨t, bound, h⟩ noEnd
    · exact ⟨t, rfl⟩
    · exact absurd h (runLoop_ne_refused (State.applyReset_rst s) r)

/-- Settles O47: the reset state is running, so the explanation of a stop holds there of nothing, and every step of the
run keeps it. -/
theorem finalStateExplainsStop : Obligations.FinalStateExplainsStop := by
  rintro s t ⟨bound, h⟩
  obtain ⟨k, -, -, ht, -⟩ := runLoop_eq_ended_iff.1 h
  exact ⟨ht, runLoop_keeps (P := fun u => u.run = false → u.StopShown) stepKeepsStopShown bound
    (s := s.applyReset) nofun (.inl h) ht⟩

theorem State.applyReset_eq (s : State) : s.applyReset = { State.reset with mem := s.mem, obs := s.obs } := rfl

/-- Settles O44: the reset state is made of memory and `OBS` alone. -/
theorem runForgetsRegisters : Obligations.RunForgetsRegisters := by
  intro bound s u hmem hobs
  rw [runFor, runFor, State.applyReset_eq, State.applyReset_eq, hmem, hobs]

end Sys2Proof.Machine
end

section
/-! LDA and STA: their meanings as one update of the state, and the step that runs them (41_data_transfer.md R100,
R101). -/

namespace Sys2Proof.Machine

/-! ### The meanings -/

theorem State.passOperand_eq (s : State) : s.passOperand = { s with pc := s.pc + 1 } := by
  rw [← inc_eq]
  rfl

theorem execState_lda (op : Byte) (s : State) :
    execState (.lda op) s = { s with pc := s.pc + 1, a := s.readByte op } := by
  rw [execState, State.passOperand_eq]
  rfl

theorem execState_sta (op : Byte) (s : State) :
    execState (.sta op) s = { s with pc := s.pc + 1, mem := s.mem.write op.toNat s.a } := by
  rw [execState, State.passOperand_eq]
  rfl

/-- Settles O8: LDA's meaning writes `PC` and `A` and nothing else. -/
theorem execLdaCompletes : Obligations.ExecLdaCompletes := by
  intro op s
  refine ⟨_, exec_eq _ s, ?_⟩
  rw [execState_lda]
  exact ⟨rfl, rfl, rfl, rfl, rfl, rfl, fun _ => rfl⟩

/-- Settles O9: STA's meaning writes `PC` and one byte of memory, and a write changes the read at its own address
alone. -/
theorem execStaCompletes : Obligations.ExecStaCompletes := by
  intro op s
  refine ⟨_, exec_eq _ s, ?_⟩
  rw [execState_sta]
  have hread (x : Nat) : (s.mem.write op.toNat s.a).read x = if x = op.toNat then s.a else s.mem.read x :=
    Memory.read_write _ _ _ x
  exact ⟨rfl, rfl, rfl, rfl, rfl, rfl, (hread _).trans (if_pos rfl), rfl, fun x hx => (hread x).trans (if_neg hx)⟩

/-! ### The steps -/

/-- A running step over a mnemonic's opcode executes its instruction, with the byte after the opcode as operand, in the
state the opcode fetch leaves (40_execution_cycle.md R81 to R83). -/
theorem step_of_opcodeOf {s : State} {m : Mnemonic} (hr : s.rst = true) (hn : s.run = true)
    (hop : s.readByte s.pc = opcodeOf m) :
    step s = exec (m.toInstr (s.readByte (s.pc + 1))) { s with ir := opcodeOf m, pc := s.pc + 1 } := by
  have hm : mnemonicOf (s.readByte s.pc) = some m := by rw [hop, mnemonicOf_opcodeOf]
  rw [step_of_mnemonicOf hr hn hm, exec_eq, State.fetchOpcode_eq, hop, inc_eq]

/-- The opcode fetch and the operand fetch move `PC` by one byte each. -/
theorem add_one_add_one (x : Byte) : x + 1 + 1 = x + 2 := by
  rw [← inc_eq, ← inc_eq, inc_inc_eq]

/-- Settles O1: LDA's meaning after the opcode fetch, which leaves memory as it was. -/
theorem stepLdaLoadsAccumulator : Obligations.StepLdaLoadsAccumulator := by
  intro s hr hn hop
  rw [step_of_opcodeOf (m := .lda) hr hn hop, exec_eq, Mnemonic.toInstr, execState_lda, ← add_one_add_one]
  rfl

/-- Settles O2: STA's meaning (O9) after the opcode fetch; the new `PC` is the stored address where the two agree. -/
theorem stepStaStoresAccumulator : Obligations.StepStaStoresAccumulator := by
  intro s hr hn hop
  obtain ⟨t, ht, ha, hpc, hir, hrun, hrst, hobs, hat, -, hother⟩ :=
    execStaCompletes (s.readByte (s.pc + 1)) { s with ir := opcodeOf .sta, pc := s.pc + 1 }
  have hpc : t.pc = s.pc + 2 := hpc.trans (add_one_add_one s.pc)
  have hstored : t.readByte (s.readByte (s.pc + 1)) = s.a := hat
  refine ⟨t, (step_of_opcodeOf (m := .sta) hr hn hop).trans ht, ha, hpc, hir, hrun.trans hn, hrst.trans hr, hobs,
    hstored, hother, fun hea => ?_⟩
  rw [hpc, ← hea, hstored]

end Sys2Proof.Machine
end

section
/-! ADD and SUB: the ALU as arithmetic modulo 256, the meanings as one update of the state, and the step that runs them
(42_arithmetic.md R120 to R122). -/

namespace Sys2Proof.Machine

/-! ### The ALU and the increment -/

theorem toNat_aluAdd (x y : Byte) : (aluAdd x y).toNat = (x.toNat + y.toNat) % 256 := by
  rw [aluAdd_eq]
  exact BitVec.toNat_add x y

/-- Subtraction is of integers: the residue of a negative difference is what the byte holds. -/
theorem toNat_aluSub (x y : Byte) : ((aluSub x y).toNat : Int) = ((x.toNat : Int) - y.toNat) % 256 := by
  have hsub : (aluSub x y).toNat = (256 - y.toNat + x.toNat) % 256 := by
    rw [aluSub_eq]
    exact BitVec.toNat_sub x y
  have hy : y.toNat < 256 := y.isLt
  omega

theorem toNat_inc (x : Byte) : (inc x).toNat = (x.toNat + 1) % 256 := by
  rw [inc_eq]
  exact BitVec.toNat_add x 1

/-- Settles O14: R122 adds 256 to the difference, which does not change its residue. -/
theorem aluComputesModulo256 : Obligations.AluComputesModulo256 := by
  intro x y
  refine ⟨toNat_aluAdd x y, ?_, toNat_inc x⟩
  rw [toNat_aluSub, Int.add_emod_right]

/-! ### The meanings -/

theorem exec_add (op : Byte) (s : State) :
    exec (.add op) s = .next { s with pc := s.pc + 1, a := aluAdd s.a (s.readByte op) } := by
  rw [exec_eq, execState, State.passOperand_eq]
  rfl

theorem exec_sub (op : Byte) (s : State) :
    exec (.sub op) s = .next { s with pc := s.pc + 1, a := aluSub s.a (s.readByte op) } := by
  rw [exec_eq, execState, State.passOperand_eq]
  rfl

/-- Settles O10: ADD's meaning writes `PC` and `A` and nothing else. -/
theorem execAddCompletes : Obligations.ExecAddCompletes := fun op s =>
  ⟨_, exec_add op s, toNat_aluAdd _ _, rfl, rfl, rfl, rfl, rfl, fun _ => rfl⟩

/-- Settles O11: SUB's meaning writes `PC` and `A` and nothing else. -/
theorem execSubCompletes : Obligations.ExecSubCompletes := fun op s =>
  ⟨_, exec_sub op s, toNat_aluSub _ _, rfl, rfl, rfl, rfl, rfl, fun _ => rfl⟩

/-! ### The steps -/

/-- Settles O3: ADD's meaning after the opcode fetch, which leaves `A` and memory as they were. -/
theorem stepAddWrapsModulo256 : Obligations.StepAddWrapsModulo256 := by
  intro s hr hn hop
  refine ⟨_, toNat_aluAdd _ _, ?_⟩
  rw [step_of_opcodeOf (m := .add) hr hn hop, Mnemonic.toInstr, exec_add, ← add_one_add_one]
  rfl

/-- Settles O4: SUB's meaning after the opcode fetch, which leaves `A` and memory as they were. -/
theorem stepSubWrapsModulo256 : Obligations.StepSubWrapsModulo256 := by
  intro s hr hn hop
  refine ⟨_, toNat_aluSub _ _, ?_⟩
  rw [step_of_opcodeOf (m := .sub) hr hn hop, Mnemonic.toInstr, exec_sub, ← add_one_add_one]
  rfl

end Sys2Proof.Machine
end

section
/-! JMP and HLT: their meanings as one update of the state, the step that runs them, and the jump to itself
(43_control.md R140, R141). -/

namespace Sys2Proof.Machine

/-! ### The meanings -/

/-- The target is read at the address after the operand; the operand stands on the left side alone. -/
theorem exec_jmp (op : Byte) (s : State) :
    exec (.jmp op) s = .next { s with pc := s.readByte (s.pc + 1) } := by
  rw [exec_eq, execState, inc_eq]
  rfl

theorem exec_hlt (s : State) : exec .hlt s = .next { s with run := false, obs := s.obs ++ [.halt] } := rfl

/-- Settles O12: JMP's meaning writes `PC` and nothing else. -/
theorem execJmpCompletes : Obligations.ExecJmpCompletes := fun op s =>
  ⟨_, exec_jmp op s, rfl, rfl, rfl, rfl, rfl, rfl, fun _ => rfl⟩

/-- Settles O13: HLT's meaning writes `RUN` and `OBS` and nothing else. -/
theorem execHltCompletes : Obligations.ExecHltCompletes := fun s =>
  ⟨_, exec_hlt s, rfl, rfl, rfl, rfl, rfl, rfl, fun _ => rfl⟩

/-! ### The steps -/

/-- Settles O5: JMP's meaning after the opcode fetch, which leaves memory as it was. -/
theorem stepJmpTakesByteAfterOperand : Obligations.StepJmpTakesByteAfterOperand := by
  intro s hr hn hop
  rw [step_of_opcodeOf (m := .jmp) hr hn hop, Mnemonic.toInstr, exec_jmp, ← add_one_add_one]
  rfl

/-- Settles O6: HLT's meaning after the opcode fetch leaves the core halted, and a halted core stays as it is (O15). -/
theorem stepHltStopsAndNotifies : Obligations.StepHltStopsAndNotifies := by
  intro s hr hn hop
  have hstep := step_of_opcodeOf (m := .hlt) hr hn hop
  rw [Mnemonic.toInstr, exec_hlt] at hstep
  obtain ⟨-, hstays⟩ := haltedCoreStaysHalted
    { s with ir := 0x00, pc := s.pc + 1, run := false, obs := s.obs ++ [.halt] } hr rfl
  exact ⟨_, hstep, rfl, hstays, State.applyReset_run _, State.applyReset_pc _⟩

/-! ### The jump to itself -/

/-- A JMP whose target is its own address changes `IR` alone, so the next step meets it again. -/
theorem step_of_selfJump {s : State} (hr : s.rst = true) (hn : s.run = true) (hop : s.readByte s.pc = 0x05)
    (hself : s.readByte (s.pc + 2) = s.pc) : step s = .next { s with ir := 0x05 } := by
  rw [stepJmpTakesByteAfterOperand s hr hn hop, hself]

/-- Settles O26, by induction on the number of steps from any such state: `IR` may differ before the first one. -/
theorem selfJumpNeverStops : Obligations.SelfJumpNeverStops := by
  intro s hr hn hop hself k
  induction k generalizing s with
  | zero => exact ⟨s, rfl, hn, rfl, rfl, rfl, rfl⟩
  | succ k ih =>
    rw [stepTimes_succ_of_next k (step_of_selfJump hr hn hop hself)]
    exact ih { s with ir := 0x05 } hr hn hop hself

end Sys2Proof.Machine
end

section
/-! Cutting a text into lines and a line into tokens (44_assembler.md R161, R162): the pieces of a cut, the induction over
a text's lines, and the tokens of joined runs. -/

namespace Sys2Proof.Machine

/-! ### Lines -/

theorem isLineFeed_eq_false_iff (c : Byte) : isLineFeed c = false ↔ c ≠ 0x0A := by
  rw [isLineFeed, beq_eq_false_iff_ne]

theorem linesOf_of_not_mem {text : List Byte} (h : (0x0A : Byte) ∉ text) : linesOf text = [text] :=
  splitWhere_of_none isLineFeed text fun c hc => (isLineFeed_eq_false_iff c).2 (ne_of_mem_of_not_mem hc h)

theorem linesOf_ne_nil (text : List Byte) : linesOf text ≠ [] := splitWhere_ne_nil isLineFeed text

theorem linesOf_append_lf (t₁ t₂ : List Byte) : linesOf (t₁ ++ 0x0A :: t₂) = linesOf t₁ ++ linesOf t₂ :=
  splitWhere_append_sep isLineFeed t₁ t₂ 0x0A rfl

theorem linesOf_line_append_lf {line : List Byte} (h : (0x0A : Byte) ∉ line) (text : List Byte) :
    linesOf (line ++ 0x0A :: text) = line :: linesOf text := by
  rw [linesOf_append_lf, linesOf_of_not_mem h, List.singleton_append]

/-- Induction over the lines of a text: it is one line, or a line and an LF before a text. -/
theorem textInduction {P : List Byte → Prop} (line : ∀ l, (0x0A : Byte) ∉ l → P l)
    (join : ∀ l text, (0x0A : Byte) ∉ l → P text → P (l ++ 0x0A :: text)) (text : List Byte) : P text := by
  induction hn : text.length using Nat.strong_induction_on generalizing text with
  | h n ih =>
    subst hn
    by_cases h : (0x0A : Byte) ∈ text
    · obtain ⟨l, rest, rfl, hl⟩ := List.eq_append_cons_of_mem h
      exact join l rest hl (ih rest.length (by simp only [List.length_append, List.length_cons]; omega) rest rfl)
    · exact line text h

/-- Settles O48, by induction over the lines of the text. -/
theorem linesRejoinToText : Obligations.LinesRejoinToText := by
  intro text
  induction text using textInduction with
  | line l hl =>
    rw [linesOf_of_not_mem hl]
    exact ⟨List.intercalate_singleton, List.forall_mem_singleton.2 hl⟩
  | join l text hl ih =>
    obtain ⟨hjoin, hlines⟩ := ih
    rw [linesOf_line_append_lf hl]
    refine ⟨?_, List.forall_mem_cons.2 ⟨hl, hlines⟩⟩
    rw [List.intercalate_cons_of_ne_nil (linesOf_ne_nil text), hjoin, List.append_assoc, List.singleton_append]

/-! ### Tokens -/

theorem tokensOf_of_run {run : List Byte} (hne : run ≠ []) (h : ∀ c ∈ run, isWhitespace c = false) :
    tokensOf run = [run] := by
  rw [tokensOf, splitWhere_of_none isWhitespace run h]
  exact List.filter_eq_self.2 (List.forall_mem_singleton.2 (by simpa using hne))

theorem tokensOf_append_whitespace (l₁ l₂ : List Byte) {c : Byte} (hc : isWhitespace c = true) :
    tokensOf (l₁ ++ c :: l₂) = tokensOf l₁ ++ tokensOf l₂ := by
  rw [tokensOf, splitWhere_append_sep isWhitespace l₁ l₂ c hc, List.filter_append]
  rfl

/-- Settles O49: the cut at whitespace, with the empty pieces dropped. -/
theorem tokensAreMaximalRuns : Obligations.TokensAreMaximalRuns := by
  refine ⟨fun run hne h => tokensOf_of_run hne fun c hc => ?_, rfl, fun l₁ l₂ c hc => ?_⟩
  · exact Bool.eq_false_iff.2 fun hw => h c hc ((isWhitespace_iff c).1 hw)
  · exact tokensOf_append_whitespace l₁ l₂ ((isWhitespace_iff c).2 hc)

end Sys2Proof.Machine
end

section
/-! The operand grammar (44_assembler.md R169): the decimal value of a token, and a spelling for every byte. -/

namespace Sys2Proof.Machine

theorem decimalValue_eq_ofDigits (token : List Byte) :
    decimalValue token = Nat.ofDigits 10 (token.reverse.map fun c => c.toNat - 0x30) := by
  rw [Nat.ofDigits_eq_foldr, List.foldr_map, List.foldr_reverse, decimalValue]
  simp only [Nat.cast_id, Nat.add_comm]

theorem parseOperand_eq_some_iff (token : List Byte) (v : Byte) :
    parseOperand token = some v ↔
      token ≠ [] ∧ (∀ c ∈ token, isDigit c = true) ∧ decimalValue token = v.toNat := by
  have hbyte : decimalValue token ≤ 255 ∧ BitVec.ofNat 8 (decimalValue token) = v ↔ decimalValue token = v.toNat := by
    rw [← BitVec.toNat_inj, BitVec.toNat_ofNat]
    omega
  rw [parseOperand, Option.ite_none_right_eq_some, Option.some_inj, ← hbyte]
  simp only [Bool.and_eq_true, Bool.not_eq_true', List.isEmpty_eq_false_iff, List.all_eq_true, decide_eq_true_eq,
    and_assoc]

/-- Settles O54: the digits' fold is their decimal value, and a value of at most 255 is a byte's. -/
theorem operandGrammarIsDecimalByte : Obligations.OperandGrammarIsDecimalByte := by
  intro token v
  rw [parseOperand_eq_some_iff, decimalValue_eq_ofDigits]
  simp only [isDigit, decide_eq_true_eq]

/-- The ASCII digit of a number below ten. -/
def digitOf (n : Nat) : Byte := BitVec.ofNat 8 (0x30 + n)

theorem digitOf_toNat {n : Nat} (h : n < 10) : (digitOf n).toNat = 0x30 + n := by
  rw [digitOf, BitVec.toNat_ofNat]
  omega

theorem isDigit_digitOf {n : Nat} (h : n < 10) : isDigit (digitOf n) = true := by
  rw [isDigit, digitOf_toNat h, decide_eq_true_eq]
  omega

theorem isWhitespace_eq_false_of_isDigit {c : Byte} (h : isDigit c = true) : isWhitespace c = false := by
  revert c; decide

/-- A byte in three decimal digits; the grammar allows leading zeros (R169). -/
def decimalSpelling (v : Byte) : List Byte :=
  [digitOf (v.toNat / 100), digitOf (v.toNat / 10 % 10), digitOf (v.toNat % 10)]

theorem decimalSpelling_ne_nil (v : Byte) : decimalSpelling v ≠ [] := List.cons_ne_nil _ _

theorem isDigit_of_mem_decimalSpelling (v : Byte) : ∀ c ∈ decimalSpelling v, isDigit c = true := by
  have := v.isLt
  rw [decimalSpelling, List.forall_mem_cons, List.forall_mem_cons, List.forall_mem_singleton]
  exact ⟨isDigit_digitOf (by omega), isDigit_digitOf (by omega), isDigit_digitOf (by omega)⟩

theorem decimalValue_decimalSpelling (v : Byte) : decimalValue (decimalSpelling v) = v.toNat := by
  have := v.isLt
  rw [decimalValue, decimalSpelling, List.foldl_cons, List.foldl_cons, List.foldl_cons, List.foldl_nil,
    digitOf_toNat (by omega), digitOf_toNat (by omega), digitOf_toNat (by omega)]
  omega

theorem parseOperand_decimalSpelling (v : Byte) : parseOperand (decimalSpelling v) = some v :=
  (parseOperand_eq_some_iff _ v).2
    ⟨decimalSpelling_ne_nil v, isDigit_of_mem_decimalSpelling v, decimalValue_decimalSpelling v⟩

end Sys2Proof.Machine
end

section
/-! The translation of one line by its tokens (44_assembler.md R163 to R171). -/

namespace Sys2Proof.Machine

theorem assembleLines_singleton (line : List Byte) : assembleLines [line] = assembleLine line := by
  rw [assembleLines]
  rcases assembleLine line with b | e
  · exact congrArg AsmResult.ok (List.append_nil b)
  · rfl

theorem assemble_of_not_mem {line : List Byte} (h : (0x0A : Byte) ∉ line) : assemble line = assembleLine line := by
  rw [assemble, linesOf_of_not_mem h, assembleLines_singleton]

/-! ### One equation per kind of line -/

theorem assembleLine_of_blank {line : List Byte} (h : tokensOf line = []) : assembleLine line = .ok [] := by
  simp only [assembleLine, h]

theorem assembleLine_of_comment {line first : List Byte} {rest : List (List Byte)} (h : tokensOf line = first :: rest)
    (hs : first.head? = some semicolon) : assembleLine line = .ok [] := by
  simp only [assembleLine, h, if_pos hs]

theorem assembleLine_of_unknown {line first : List Byte} {rest : List (List Byte)} (h : tokensOf line = first :: rest)
    (hs : first.head? ≠ some semicolon) (hm : mnemonicOfText first = none) :
    assembleLine line = .err (.unknownOpcode first) := by
  simp only [assembleLine, h, if_neg hs, hm]

theorem head?_mnemonicText_ne_semicolon (m : Mnemonic) : (mnemonicText m).head? ≠ some semicolon := by
  cases m <;> decide

theorem assembleLine_of_mnemonicText {line : List Byte} {m : Mnemonic} {rest : List (List Byte)}
    (h : tokensOf line = mnemonicText m :: rest) :
    assembleLine line = if arityOf m = 0 then .ok [opcodeOf m] else assembleOperand line rest (opcodeOf m) := by
  simp only [assembleLine, h, if_neg (head?_mnemonicText_ne_semicolon m), mnemonicOfText_text]

theorem assembleOperand_nil (line : List Byte) (opcode : Byte) :
    assembleOperand line [] opcode = .err (.invalidOperand line) := rfl

theorem assembleOperand_of_none {token : List Byte} (h : parseOperand token = none) (line : List Byte)
    (more : List (List Byte)) (opcode : Byte) :
    assembleOperand line (token :: more) opcode = .err (.invalidOperand line) := by
  simp only [assembleOperand, h]

theorem assembleOperand_of_some {token : List Byte} {v : Byte} (h : parseOperand token = some v) (line : List Byte)
    (more : List (List Byte)) (opcode : Byte) : assembleOperand line (token :: more) opcode = .ok [opcode, v] := by
  simp only [assembleOperand, h]

/-! ### The spellings -/

theorem eq_mnemonicText_of_mnemonicOfText {token : List Byte} {m : Mnemonic} (h : mnemonicOfText token = some m) :
    token = mnemonicText m := by
  obtain ⟨r, hr, rfl⟩ := Option.map_eq_some_iff.1 h
  have hspelled := List.find?_some hr
  exact (eq_of_beq hspelled).symm

/-- A token spelled like no mnemonic looks up none (R165). -/
theorem mnemonicOfText_eq_none {token : List Byte}
    (h : token ∉ [Mnemonic.hlt, .lda, .sta, .add, .sub, .jmp].map mnemonicText) : mnemonicOfText token = none := by
  rcases hm : mnemonicOfText token with _ | m
  · rfl
  · obtain rfl := eq_mnemonicText_of_mnemonicOfText hm
    exact absurd (List.mem_map_of_mem (by cases m <;> decide)) h

/-! ### The statements about one line -/

/-- Settles O50: no line feed means one line, and neither kind of line reaches the mnemonic lookup. -/
theorem blankAndCommentLinesSkipped : Obligations.BlankAndCommentLinesSkipped := by
  intro line hlf h
  rw [assemble_of_not_mem hlf]
  obtain hblank | ⟨rest, tokens, hcomment⟩ := h
  · exact assembleLine_of_blank hblank
  · exact assembleLine_of_comment hcomment rfl

/-- Settles O51: the six spellings are those of the mnemonics, so the lookup finds none. -/
theorem unknownMnemonicFails : Obligations.UnknownMnemonicFails := by
  intro line token tokens hlf ht hs hm
  rw [assemble_of_not_mem hlf]
  exact assembleLine_of_unknown ht hs (mnemonicOfText_eq_none hm)

/-- Settles O52: HLT's arity is 0, so the tokens after it are not read. -/
theorem hltLineIgnoresTrailingTokens : Obligations.HltLineIgnoresTrailingTokens := by
  intro line tokens hlf ht
  rw [assemble_of_not_mem hlf]
  exact assembleLine_of_mnemonicText (m := .hlt) ht

/-- The five rows with an operand are spellings and opcodes of mnemonics whose arity is not 0. -/
theorem exists_mnemonic_of_operand_row {spelling : List Byte} {opcode : Byte}
    (h : (spelling, opcode) ∈ [Mnemonic.lda, .sta, .add, .sub, .jmp].map fun m => (mnemonicText m, opcodeOf m)) :
    ∃ m : Mnemonic, arityOf m ≠ 0 ∧ mnemonicText m = spelling ∧ opcodeOf m = opcode := by
  obtain ⟨m, hm, he⟩ := List.mem_map.1 h
  obtain ⟨hs, ho⟩ := Prod.mk.inj he
  refine ⟨m, fun h0 => ?_, hs, ho⟩
  obtain rfl := (arityOf_eq_zero_iff m).1 h0
  exact absurd hm (by decide)

/-- Settles O53: each row is a mnemonic's with an operand, and the second token decides. -/
theorem operandLineAssembles : Obligations.OperandLineAssembles := by
  intro spelling opcode line tokens hrow hlf ht
  obtain ⟨m, hm, rfl, rfl⟩ := exists_mnemonic_of_operand_row hrow
  rw [assemble_of_not_mem hlf, assembleLine_of_mnemonicText ht, if_neg hm]
  refine ⟨?_, ?_⟩
  · rintro rfl
    exact assembleOperand_nil line (opcodeOf m)
  · rintro token more rfl
    exact ⟨fun h => assembleOperand_of_none h line more _, fun v h => assembleOperand_of_some h line more _⟩

end Sys2Proof.Machine
end

section
/-! Translation line by line (44_assembler.md R161, R172, R173): joined texts, a text for every program, and CR before
every LF. -/

namespace Sys2Proof.Machine

theorem assemble_append_lf (t₁ t₂ : List Byte) :
    assemble (t₁ ++ 0x0A :: t₂) = assembleLines (linesOf t₁ ++ linesOf t₂) := by
  rw [assemble, linesOf_append_lf]

/-- Settles O55: the lines of a join are the lines of both texts, translated one list after the other. -/
theorem assembleJoinsTexts : Obligations.AssembleJoinsTexts := by
  intro t₁ t₂
  rw [assemble_append_lf, assembleLines_append, assemble, assemble]
  refine ⟨fun e h => ?_, fun b₁ e h₁ h₂ => ?_, fun b₁ b₂ h₁ h₂ => ?_⟩
  · rw [h]
  · rw [h₁, h₂]
  · rw [h₁, h₂]

theorem assemble_append_lf_ok {t₁ t₂ b₁ b₂ : List Byte} (h₁ : assemble t₁ = .ok b₁) (h₂ : assemble t₂ = .ok b₂) :
    assemble (t₁ ++ 0x0A :: t₂) = .ok (b₁ ++ b₂) := by
  obtain ⟨-, -, hok⟩ := assembleJoinsTexts t₁ t₂
  exact hok b₁ b₂ h₁ h₂

/-! ### A text for every program -/

theorem isWhitespace_eq_false_of_mem_mnemonicText (m : Mnemonic) : ∀ c ∈ mnemonicText m, isWhitespace c = false := by
  cases m <;> decide

theorem tokensOf_mnemonicText (m : Mnemonic) : tokensOf (mnemonicText m) = [mnemonicText m] :=
  tokensOf_of_run (by cases m <;> exact List.cons_ne_nil _ _) (isWhitespace_eq_false_of_mem_mnemonicText m)

theorem lf_not_mem_of_no_whitespace {run : List Byte} (h : ∀ c ∈ run, isWhitespace c = false) :
    (0x0A : Byte) ∉ run :=
  fun hmem => Bool.noConfusion (h 0x0A hmem)

theorem isWhitespace_eq_false_of_mem_decimalSpelling (v : Byte) :
    ∀ c ∈ decimalSpelling v, isWhitespace c = false :=
  fun c hc => isWhitespace_eq_false_of_isDigit (isDigit_of_mem_decimalSpelling v c hc)

/-- The line of a mnemonic with an operand byte. -/
def operandLine (m : Mnemonic) (op : Byte) : List Byte := mnemonicText m ++ 0x20 :: decimalSpelling op

theorem tokensOf_operandLine (m : Mnemonic) (op : Byte) :
    tokensOf (operandLine m op) = [mnemonicText m, decimalSpelling op] := by
  rw [operandLine, tokensOf_append_whitespace _ _ (by decide), tokensOf_mnemonicText,
    tokensOf_of_run (decimalSpelling_ne_nil op) (isWhitespace_eq_false_of_mem_decimalSpelling op),
    List.singleton_append]

theorem lf_not_mem_operandLine (m : Mnemonic) (op : Byte) : (0x0A : Byte) ∉ operandLine m op := by
  rw [operandLine, List.mem_append, List.mem_cons, not_or, not_or]
  exact ⟨lf_not_mem_of_no_whitespace (isWhitespace_eq_false_of_mem_mnemonicText m), by decide,
    lf_not_mem_of_no_whitespace (isWhitespace_eq_false_of_mem_decimalSpelling op)⟩

theorem assemble_mnemonicText {m : Mnemonic} (hm : arityOf m = 0) :
    assemble (mnemonicText m) = .ok [opcodeOf m] := by
  rw [assemble_of_not_mem (lf_not_mem_of_no_whitespace (isWhitespace_eq_false_of_mem_mnemonicText m)),
    assembleLine_of_mnemonicText (tokensOf_mnemonicText m), if_pos hm]

theorem assemble_operandLine {m : Mnemonic} (hm : arityOf m ≠ 0) (op : Byte) :
    assemble (operandLine m op) = .ok [opcodeOf m, op] := by
  rw [assemble_of_not_mem (lf_not_mem_operandLine m op), assembleLine_of_mnemonicText (tokensOf_operandLine m op),
    if_neg hm, assembleOperand_of_some (parseOperand_decimalSpelling op)]

theorem exists_assemble_eq_encode (i : Instr) : ∃ line : List Byte, assemble line = .ok (encode i) := by
  obtain ⟨m, hm, rfl⟩ | ⟨m, op, hm, rfl⟩ := i.exists_toInstr
  · exact ⟨mnemonicText m, by rw [assemble_mnemonicText hm, encode_toInstr_of_arity_zero hm]⟩
  · exact ⟨operandLine m op, by rw [assemble_operandLine hm, encode_toInstr hm]⟩

/-- Settles O57, by induction on the program: a line for its first instruction, an LF, a text for the others. -/
theorem everyProgramHasText : Obligations.EveryProgramHasText := by
  intro p
  induction p with
  | nil => exact ⟨[], rfl⟩
  | cons i is ih =>
    obtain ⟨line, hline⟩ := exists_assemble_eq_encode i
    obtain ⟨text, htext⟩ := ih
    exact ⟨line ++ 0x0A :: text, assemble_append_lf_ok hline htext⟩

/-! ### CR before every LF -/

/-- The text with a CR put before every LF. -/
def withCrBeforeLf (text : List Byte) : List Byte :=
  text.flatMap fun c => if c = 0x0A then [0x0D, 0x0A] else [c]

theorem withCrBeforeLf_of_not_mem {line : List Byte} (h : (0x0A : Byte) ∉ line) : withCrBeforeLf line = line := by
  have hkeep : ∀ c ∈ line, (if c = 0x0A then [0x0D, 0x0A] else [c]) = [c] :=
    fun c hc => if_neg (ne_of_mem_of_not_mem hc h)
  rw [withCrBeforeLf, List.flatMap_congr hkeep, List.flatMap_singleton']

theorem withCrBeforeLf_line_append_lf {line : List Byte} (h : (0x0A : Byte) ∉ line) (text : List Byte) :
    withCrBeforeLf (line ++ 0x0A :: text) = (line ++ [0x0D]) ++ 0x0A :: withCrBeforeLf text := by
  conv_lhs => rw [withCrBeforeLf, List.flatMap_append, ← withCrBeforeLf, withCrBeforeLf_of_not_mem h]
  rw [List.append_assoc]
  rfl

/-- CR is whitespace (decision D11), so at the end of a line it is in no token. -/
theorem tokensOf_append_cr (line : List Byte) : tokensOf (line ++ [0x0D]) = tokensOf line := by
  rw [tokensOf_append_whitespace line [] (by decide)]
  exact List.append_nil _

/-- The line itself is in an error alone: where it assembles, its tokens fix the bytes. -/
theorem assembleLine_ok_of_tokensOf_eq {l₁ l₂ bytes : List Byte} (ht : tokensOf l₂ = tokensOf l₁)
    (h : assembleLine l₁ = .ok bytes) : assembleLine l₂ = .ok bytes := by
  rcases ht₁ : tokensOf l₁ with _ | ⟨first, rest⟩
  · rw [← h, assembleLine_of_blank ht₁, assembleLine_of_blank (ht.trans ht₁)]
  by_cases hs : first.head? = some semicolon
  · rw [← h, assembleLine_of_comment ht₁ hs, assembleLine_of_comment (ht.trans ht₁) hs]
  rcases hm : mnemonicOfText first with _ | m
  · cases (assembleLine_of_unknown ht₁ hs hm).symm.trans h
  obtain rfl := eq_mnemonicText_of_mnemonicOfText hm
  rw [assembleLine_of_mnemonicText ht₁] at h
  rw [assembleLine_of_mnemonicText (ht.trans ht₁)]
  by_cases h0 : arityOf m = 0
  · rwa [if_pos h0] at h ⊢
  rw [if_neg h0] at h ⊢
  rcases rest with _ | ⟨token, more⟩
  · cases h
  rcases hv : parseOperand token with _ | v
  · cases (assembleOperand_of_none hv l₁ more (opcodeOf m)).symm.trans h
  · rw [← h, assembleOperand_of_some hv, assembleOperand_of_some hv]

theorem assemble_line_append_cr {line bytes : List Byte} (hlf : (0x0A : Byte) ∉ line)
    (h : assembleLine line = .ok bytes) : assemble (line ++ [0x0D]) = .ok bytes := by
  have hlf' : (0x0A : Byte) ∉ line ++ [0x0D] := by
    rw [List.mem_append, not_or]
    exact ⟨hlf, by decide⟩
  rw [assemble_of_not_mem hlf']
  exact assembleLine_ok_of_tokensOf_eq (tokensOf_append_cr line) h

theorem assemble_withCrBeforeLf {text bytes : List Byte} (h : assemble text = .ok bytes) :
    assemble (withCrBeforeLf text) = .ok bytes := by
  induction text using textInduction generalizing bytes with
  | line l hl => rwa [withCrBeforeLf_of_not_mem hl]
  | join l text hl ih =>
    rw [assemble, linesOf_line_append_lf hl] at h
    obtain ⟨b, more, hline, htext, rfl⟩ := assembleLines_cons_ok h
    rw [withCrBeforeLf_line_append_lf hl]
    exact assemble_append_lf_ok (assemble_line_append_cr hl hline) (ih htext)

/-- Settles O58, by induction over the lines of the text: a CR at the end of a line leaves its tokens as they are. -/
theorem crlfTextAssemblesTheSame : Obligations.CrlfTextAssemblesTheSame :=
  fun _ _ h => assemble_withCrBeforeLf h

end Sys2Proof.Machine
end

section
/-! The host's commands: what each answers, that none but an early step is refused, and that every command keeps the
invariant (45_host_interface.md R190 to R200). -/

namespace Sys2Proof.Machine

/-! ### The memory commands, by address: what they read and what they leave (R191 to R193) -/

theorem State.setMemory_of_lt (s : State) {x : Nat} (hx : x < 256) (v : Byte) :
    s.setMemory x v = { s with mem := s.mem.write x v } :=
  if_pos hx

theorem State.setMemory_of_le (s : State) {x : Nat} (hx : 256 ≤ x) (v : Byte) : s.setMemory x v = s :=
  if_neg (Nat.not_lt.2 hx)

theorem State.read_setMemory (s : State) (x : Nat) (v : Byte) (y : Nat) :
    (s.setMemory x v).mem.read y = if y = x ∧ x < 256 then v else s.mem.read y := by
  rcases Nat.lt_or_ge x 256 with hx | hx
  · simp [State.setMemory_of_lt s hx, Memory.read_write, hx]
  · simp [State.setMemory_of_le s hx, hx]

/-- A load from address `k` on puts byte `i` of the list at `k + i`; below `k` and past the list nothing changes. -/
theorem Memory.read_loadFrom (k : Nat) (bytes : List Byte) (m : Memory) (x : Nat) :
    (m.loadFrom k bytes).read x = if k ≤ x then (bytes[x - k]?).getD (m.read x) else m.read x := by
  induction bytes generalizing k m with
  | nil => simp [Memory.loadFrom]
  | cons b bs ih =>
    rw [Memory.loadFrom, ih, Memory.read_write]
    rcases Nat.lt_trichotomy x k with hx | rfl | hx
    · rw [if_neg (by omega), if_neg (by omega), if_neg (by omega)]
    · simp
    · have hsub : x - k = (x - (k + 1)) + 1 := by omega
      rw [if_pos (by omega), if_neg (by omega), if_pos (by omega), hsub, List.getElem?_cons_succ]

theorem State.read_loadProgram (s : State) (bytes : List Byte) (x : Nat) :
    (s.loadProgram bytes).mem.read x = if x < 256 then (bytes[x]?).getD (s.mem.read x) else s.mem.read x := by
  rw [State.loadProgram_mem, Memory.read_loadFrom, if_pos (Nat.zero_le x), memorySize_eq, Nat.sub_zero,
    List.getElem?_take]
  split <;> rfl

theorem State.getMemory_toNat (s : State) (x : Byte) : s.getMemory x.toNat = s.readByte x :=
  if_pos x.isLt

theorem State.getMemory_of_le (s : State) {x : Nat} (hx : 256 ≤ x) : s.getMemory x = 0 :=
  if_neg (Nat.not_lt.2 hx)

theorem sameRegisters_withMem (s : State) (m : Memory) : SameRegisters s { s with mem := m } :=
  ⟨rfl, rfl, rfl, rfl, rfl, rfl⟩

theorem sameRegisters_loadProgram (s : State) (bytes : List Byte) : SameRegisters s (s.loadProgram bytes) :=
  sameRegisters_withMem s _

theorem sameRegisters_setMemory (s : State) (x : Nat) (v : Byte) : SameRegisters s (s.setMemory x v) := by
  rcases Nat.lt_or_ge x 256 with hx | hx
  · rw [State.setMemory_of_lt s hx]
    exact sameRegisters_withMem s _
  · rw [State.setMemory_of_le s hx]
    exact sameRegisters_withMem s s.mem

/-! ### The invariant (R24, R90) -/

/-- Of memory the invariant asks only the canonical form, so a host that writes memory alone cannot break the rest. -/
theorem State.Inv.of_sameRegisters {s t : State} (h : s.Inv) (hreg : SameRegisters s t) (hmem : t.mem.wf = true) :
    t.Inv := by
  obtain ⟨-, hobs, hstop⟩ := h
  obtain ⟨-, -, hir, hrun, hrst, hobs'⟩ := hreg
  refine ⟨hmem, hobs' ▸ hobs, fun hr hn => ?_⟩
  rw [State.stopExplained, hobs', hir]
  exact hstop (hrst ▸ hr) (hrun ▸ hn)

theorem State.Inv.loadProgram {s : State} (h : s.Inv) (bytes : List Byte) : (s.loadProgram bytes).Inv :=
  h.of_sameRegisters (sameRegisters_loadProgram s bytes) (State.loadProgram_wf s bytes h.1)

theorem State.Inv.setMemory {s : State} (h : s.Inv) (x : Nat) (v : Byte) : (s.setMemory x v).Inv :=
  h.of_sameRegisters (sameRegisters_setMemory s x v) (State.setMemory_wf s x v h.1)

/-- Reset sets `RUN`, so there is no stop to explain after it. -/
theorem State.Inv.applyReset {s : State} (h : s.Inv) : s.applyReset.Inv := by
  obtain ⟨hmem, hobs, -⟩ := h
  exact ⟨hmem, hobs, fun _ hn => nomatch hn⟩

theorem State.Inv.runFor {s t : State} {bound : Nat} (h : s.Inv)
    (hrun : runFor bound s = .ended t ∨ runFor bound s = .abandoned t) : t.Inv :=
  runLoop_keeps stepKeepsInvariant bound h.applyReset hrun

/-- Settles O59, by cases on the command; `run` by the run loop's induction from the reset state. -/
theorem commandsKeepInvariant : Obligations.CommandsKeepInvariant := by
  intro bound c s t r hs h
  cases c with
  | loadProgram bytes => cases h; exact hs.loadProgram bytes
  | setMemory x v => cases h; exact hs.setMemory x v
  | getMemory x => cases h; exact hs
  | reset => cases h; exact hs.applyReset
  | step => exact stepKeepsInvariant s t hs (perform_step_next h)
  | run => exact hs.runFor (perform_run_next h)
  | statusRead => cases h; exact hs

/-- At construction memory and `OBS` are empty and `RST` is clear, so the invariant holds whatever the registers. -/
theorem State.inv_constructed (n : Nat) : (State.constructed n).Inv :=
  ⟨rfl, rfl, fun hr => nomatch hr⟩

/-- Settles O35, by induction on the commands that reach the state. -/
theorem reachableStatesMeetInvariant : Obligations.ReachableStatesMeetInvariant := by
  intro s hs
  induction hs with
  | construct n => exact State.inv_constructed n
  | command bound c s t r _ h ih => exact commandsKeepInvariant bound c s t r ih h

/-! ### What the memory commands and the status read answer (R191 to R193, R197) -/

/-- Settles O38, by what a load leaves at each address. -/
theorem loadProgramCopiesFromZero : Obligations.LoadProgramCopiesFromZero :=
  fun _ bytes s => ⟨s.loadProgram bytes, rfl, sameRegisters_loadProgram s bytes, State.read_loadProgram s bytes⟩

/-- Settles O39, by what a write leaves at each address. -/
theorem setMemoryWritesOneByte : Obligations.SetMemoryWritesOneByte :=
  fun _ x v s => ⟨s.setMemory x v, rfl, fun hx => State.setMemory_of_le s hx v, sameRegisters_setMemory s x v,
    State.read_setMemory s x v⟩

theorem perform_getMemory (bound x : Nat) (s : State) :
    perform bound (.getMemory x) s = .next (s, .byte (s.getMemory x)) := rfl

/-- Settles O40, by the two ranges of an address. -/
theorem readCommandsChangeNothing : Obligations.ReadCommandsChangeNothing := by
  intro bound s
  refine ⟨fun x => ?_, fun x hx => ?_, ⟨s.statusRead, rfl⟩, fun _ => rfl⟩
  · rw [perform_getMemory, State.getMemory_toNat]
  · rw [perform_getMemory, State.getMemory_of_le s hx]

/-! ### Refusals (R190, R27) -/

theorem perform_step_refused_iff {bound : Nat} {s : State} {r : Refusal} :
    perform bound .step s = .refused r ↔ step s = .refused r := by
  rcases hst : step s with t | f | r'
  · simp [perform, hst]
  · exact nomatch f
  · simp [perform, hst]

/-- A run resets first, so no step of it is refused. -/
theorem perform_run_ne_refused (bound : Nat) (s : State) (r : Refusal) : perform bound .run s ≠ .refused r := by
  rcases hrun : runFor bound s with t | t | r'
  · simp [perform, hrun]
  · simp [perform, hrun]
  · exact absurd hrun (runLoop_ne_refused (State.applyReset_rst s) r')

/-- Settles O41, by cases on the command: only `step` can be refused, and that exactly where the step is. -/
theorem onlyEarlyStepIsRefused : Obligations.OnlyEarlyStepIsRefused := by
  intro bound c s r
  cases c with
  | step => simpa [perform_step_refused_iff] using stepRefusedExactlyBeforeReset s r
  | run => simp [perform_run_ne_refused]
  | loadProgram | setMemory | getMemory | reset | statusRead => exact iff_of_false nofun nofun

end Sys2Proof.Machine
end

section
/-! The unknown-opcode stop (60_exceptions.md R210): the stop as one update of the state, and the step that runs it. -/

namespace Sys2Proof.Machine

theorem State.unknownOpcodeStop_eq (s : State) (v : Byte) :
    s.unknownOpcodeStop v = { s with run := false, obs := s.obs ++ [.unknownInstruction v] } := rfl

/-- Settles O7: no row of the table has an opcode of 6 or more, so the step is the stop after the opcode fetch. -/
theorem stepUnknownOpcodeStops : Obligations.StepUnknownOpcodeStops := by
  intro s hr hn hv
  have hnone : mnemonicOf (s.readByte s.pc) = none := (mnemonicOf_eq_none_iff _).mpr hv
  rw [step_of_unknownOpcode hr hn hnone, State.unknownOpcodeStop_eq, State.fetchOpcode_eq]

end Sys2Proof.Machine
end

section
/-! The reset command (70_reset_and_hazards.md R230, 10_state.md R31): the one update it answers, and the fields that
update leaves. -/

namespace Sys2Proof.Machine

theorem perform_reset (bound : Nat) (s : State) : perform bound .reset s = .next (s.applyReset, .nothing) := rfl

/-- Settles O37, by the field lemmas of the reset operation. -/
theorem resetClearsRegistersKeepsMemory : Obligations.ResetClearsRegistersKeepsMemory :=
  fun bound s => ⟨s.applyReset, perform_reset bound s, s.applyReset_a, s.applyReset_pc, s.applyReset_ir,
    s.applyReset_run, s.applyReset_mem, s.applyReset_rst, s.applyReset_obs⟩

end Sys2Proof.Machine
end
